-- ==== Sys2Proof/Word.lean ====
section
/-!
DEFINITION. The word types of the machine: the widths of spec/00_scope.md rules R6 and R10.
-/
namespace Sys2Proof

/-- An 8-bit quantity: a memory byte, a V register, a timer (00_scope R6). -/
abbrev Byte := BitVec 8

/-- A 16-bit quantity: the program counter, the index register, a stack entry, an opcode (00_scope R6). -/
abbrev Word := BitVec 16

/-- A 4-bit field: a register number, a sprite height, a key number (30_encoding R73). -/
abbrev Nibble := BitVec 4

/-- The 12-bit address field `nnn` (30_encoding R73). -/
abbrev Addr12 := BitVec 12

/-- The 64 x 32 one-bit pixels, 1 = lit: row `r` is entry `r`, and column `c` of a row is its bit `c`, so
that entry after entry, bit 0 first, is the row-major order `r * 64 + c` of the `frame` port (10_state
R35, 00_scope R9; log 13). -/
abbrev Frame := Vector (BitVec 64) 32

end Sys2Proof
end

