-- ==== Sys2Proof/Syntax.lean ====
section
/-!
DEFINITION. The instructions: one constructor per row of spec/opcode_table.json, in the table's order.
The operand fields are those of 30_encoding R72 and R73.
-/
namespace Sys2Proof

/-- The instruction set (30_encoding R77, R81). -/
inductive Instr where
  /-- `00E0` CLS (R90). -/
  | cls
  /-- `00EE` RET (R100). -/
  | ret
  /-- `1nnn` JP nnn (R101). -/
  | jp (nnn : Addr12)
  /-- `2nnn` CALL nnn (R102). -/
  | call (nnn : Addr12)
  /-- `3xkk` SE Vx, kk (R106). -/
  | seImm (x : Nibble) (kk : Byte)
  /-- `4xkk` SNE Vx, kk (R107). -/
  | sneImm (x : Nibble) (kk : Byte)
  /-- `5xy0` SE Vx, Vy (R108). -/
  | seReg (x y : Nibble)
  /-- `6xkk` LD Vx, kk (R120). -/
  | ldImm (x : Nibble) (kk : Byte)
  /-- `7xkk` ADD Vx, kk (R121). -/
  | addImm (x : Nibble) (kk : Byte)
  /-- `8xy0` LD Vx, Vy (R122). -/
  | ldReg (x y : Nibble)
  /-- `8xy1` OR Vx, Vy (R123). -/
  | orReg (x y : Nibble)
  /-- `8xy2` AND Vx, Vy (R124). -/
  | andReg (x y : Nibble)
  /-- `8xy3` XOR Vx, Vy (R125). -/
  | xorReg (x y : Nibble)
  /-- `8xy4` ADD Vx, Vy (R126). -/
  | addReg (x y : Nibble)
  /-- `8xy5` SUB Vx, Vy (R127). -/
  | subReg (x y : Nibble)
  /-- `8xy6` SHR Vx (R128); `y` is in the word and is not read (R74). -/
  | shr (x y : Nibble)
  /-- `8xy7` SUBN Vx, Vy (R129). -/
  | subnReg (x y : Nibble)
  /-- `8xyE` SHL Vx (R130); `y` is in the word and is not read (R74). -/
  | shl (x y : Nibble)
  /-- `9xy0` SNE Vx, Vy (R109). -/
  | sneReg (x y : Nibble)
  /-- `Annn` LD I, nnn (R140). -/
  | ldI (nnn : Addr12)
  /-- `Bnnn` JP V0, nnn (R110). -/
  | jpV0 (nnn : Addr12)
  /-- `Cxkk` RND Vx, kk (R131). -/
  | rnd (x : Nibble) (kk : Byte)
  /-- `Dxyn` DRW Vx, Vy, n (R91). -/
  | drw (x y n : Nibble)
  /-- `Ex9E` SKP Vx (R151). -/
  | skp (x : Nibble)
  /-- `ExA1` SKNP Vx (R152). -/
  | sknp (x : Nibble)
  /-- `Fx07` LD Vx, DT (R153). -/
  | ldVxDt (x : Nibble)
  /-- `Fx0A` LD Vx, K (R154). -/
  | ldVxK (x : Nibble)
  /-- `Fx15` LD DT, Vx (R155). -/
  | ldDtVx (x : Nibble)
  /-- `Fx18` LD ST, Vx (R156). -/
  | ldStVx (x : Nibble)
  /-- `Fx1E` ADD I, Vx (R141). -/
  | addI (x : Nibble)
  /-- `Fx29` LD F, Vx (R142). -/
  | ldF (x : Nibble)
  /-- `Fx33` LD B, Vx (R143). -/
  | ldB (x : Nibble)
  /-- `Fx55` LD [I], Vx (R144). -/
  | stRegs (x : Nibble)
  /-- `Fx65` LD Vx, [I] (R145). -/
  | ldRegs (x : Nibble)
  /-- `0nnn` SYS nnn, every `0nnn` word but `00E0` and `00EE` (R160). -/
  | sys (nnn : Addr12)
  /-- Every other word: unrecognized (R161, R162). -/
  | dw (word : Word)
  deriving DecidableEq, Repr

end Sys2Proof
end

