-- ==== Sys2Proof/WellFormed.lean ====
section
/-!
DEFINITION. Which instruction terms a word of the machine stands for. The fields' widths are in their
types; what is left to check is that `sys` and `dw` hold only words no row above theirs matches
(30_encoding R76, R78).
-/
namespace Sys2Proof

/-- The unrecognized words outside the `0nnn` space, listed as 30_encoding R78 lists them, by nibble
3, nibble 0 and the low byte. -/
def isUnrecognized (w : Word) : Bool :=
  let family := w.extractLsb' 12 4
  let low := w.extractLsb' 0 4
  let sub := w.extractLsb' 0 8
  (family == 0x5 && low != 0)
    || (family == 0x8 && (low == 0x8 || low == 0x9 || low == 0xA || low == 0xB
          || low == 0xC || low == 0xD || low == 0xF))
    || (family == 0x9 && low != 0)
    || (family == 0xE && sub != 0x9E && sub != 0xA1)
    || (family == 0xF && sub != 0x07 && sub != 0x0A && sub != 0x15 && sub != 0x18
          && sub != 0x1E && sub != 0x29 && sub != 0x33 && sub != 0x55 && sub != 0x65)

/-- A `SYS` address is any but those of `00E0` and `00EE`, which take priority (30_encoding R76). -/
def isSysAddress (nnn : Addr12) : Bool := nnn != 0x0E0 && nnn != 0x0EE

/-- Well-formed: the term is the meaning of some word. -/
def Instr.wf : Instr → Bool
  | .sys nnn => isSysAddress nnn
  | .dw word => isUnrecognized word
  | .cls | .ret => true
  | .jp _ | .call _ | .ldI _ | .jpV0 _ => true
  | .seImm _ _ | .sneImm _ _ | .ldImm _ _ | .addImm _ _ | .rnd _ _ => true
  | .seReg _ _ | .sneReg _ _ | .ldReg _ _ | .orReg _ _ | .andReg _ _ | .xorReg _ _ => true
  | .addReg _ _ | .subReg _ _ | .subnReg _ _ | .shr _ _ | .shl _ _ => true
  | .drw _ _ _ => true
  | .skp _ | .sknp _ | .ldVxDt _ | .ldVxK _ | .ldDtVx _ | .ldStVx _ => true
  | .addI _ | .ldF _ | .ldB _ | .stRegs _ | .ldRegs _ => true

end Sys2Proof
end

