-- ==== Sys2Proof/Decode.lean ====
section
/-!
DEFINITION. Decoding by the (match, mask) table of 30_encoding R75 and spec/opcode_table.json, total on
any bytes, and the encoder written from the formats of 30_encoding R72.
-/
namespace Sys2Proof

/-! ## Fields (00_scope R11) -/

/-- `x = op[11:8]`. -/
def fieldX (op : Word) : Nibble := op.extractLsb' 8 4
/-- `y = op[7:4]`. -/
def fieldY (op : Word) : Nibble := op.extractLsb' 4 4
/-- `n = op[3:0]`. -/
def fieldN (op : Word) : Nibble := op.extractLsb' 0 4
/-- `kk = op[7:0]`. -/
def fieldKK (op : Word) : Byte := op.extractLsb' 0 8
/-- `nnn = op[11:0]`. -/
def fieldNNN (op : Word) : Addr12 := op.extractLsb' 0 12

/-! ## The table (30_encoding R75) -/

/-- One row of spec/opcode_table.json: it matches `op` when `op &&& mask = pattern`. -/
structure Row where
  pattern : Word
  mask : Word
  /-- The instruction the row reads from a word it matches. -/
  build : Word → Instr

/-- `(opcode & mask) == match` (30_encoding R75). -/
def Row.matches (r : Row) (op : Word) : Bool := op &&& r.mask == r.pattern

/-- Rows whose word has no sub-opcode in its low byte. -/
def rowsPlain : List Row := [
  ⟨0x00E0, 0xFFFF, fun _ => .cls⟩,
  ⟨0x00EE, 0xFFFF, fun _ => .ret⟩,
  ⟨0x1000, 0xF000, fun w => .jp (fieldNNN w)⟩,
  ⟨0x2000, 0xF000, fun w => .call (fieldNNN w)⟩,
  ⟨0x3000, 0xF000, fun w => .seImm (fieldX w) (fieldKK w)⟩,
  ⟨0x4000, 0xF000, fun w => .sneImm (fieldX w) (fieldKK w)⟩,
  ⟨0x5000, 0xF00F, fun w => .seReg (fieldX w) (fieldY w)⟩,
  ⟨0x6000, 0xF000, fun w => .ldImm (fieldX w) (fieldKK w)⟩,
  ⟨0x7000, 0xF000, fun w => .addImm (fieldX w) (fieldKK w)⟩]

/-- The `8xyN` family. -/
def rowsAlu : List Row := [
  ⟨0x8000, 0xF00F, fun w => .ldReg (fieldX w) (fieldY w)⟩,
  ⟨0x8001, 0xF00F, fun w => .orReg (fieldX w) (fieldY w)⟩,
  ⟨0x8002, 0xF00F, fun w => .andReg (fieldX w) (fieldY w)⟩,
  ⟨0x8003, 0xF00F, fun w => .xorReg (fieldX w) (fieldY w)⟩,
  ⟨0x8004, 0xF00F, fun w => .addReg (fieldX w) (fieldY w)⟩,
  ⟨0x8005, 0xF00F, fun w => .subReg (fieldX w) (fieldY w)⟩,
  ⟨0x8006, 0xF00F, fun w => .shr (fieldX w) (fieldY w)⟩,
  ⟨0x8007, 0xF00F, fun w => .subnReg (fieldX w) (fieldY w)⟩,
  ⟨0x800E, 0xF00F, fun w => .shl (fieldX w) (fieldY w)⟩]

/-- The families `9` to `D`. -/
def rowsUpper : List Row := [
  ⟨0x9000, 0xF00F, fun w => .sneReg (fieldX w) (fieldY w)⟩,
  ⟨0xA000, 0xF000, fun w => .ldI (fieldNNN w)⟩,
  ⟨0xB000, 0xF000, fun w => .jpV0 (fieldNNN w)⟩,
  ⟨0xC000, 0xF000, fun w => .rnd (fieldX w) (fieldKK w)⟩,
  ⟨0xD000, 0xF000, fun w => .drw (fieldX w) (fieldY w) (fieldN w)⟩]

/-- The `ExNN` and `FxNN` families. -/
def rowsSub : List Row := [
  ⟨0xE09E, 0xF0FF, fun w => .skp (fieldX w)⟩,
  ⟨0xE0A1, 0xF0FF, fun w => .sknp (fieldX w)⟩,
  ⟨0xF007, 0xF0FF, fun w => .ldVxDt (fieldX w)⟩,
  ⟨0xF00A, 0xF0FF, fun w => .ldVxK (fieldX w)⟩,
  ⟨0xF015, 0xF0FF, fun w => .ldDtVx (fieldX w)⟩,
  ⟨0xF018, 0xF0FF, fun w => .ldStVx (fieldX w)⟩,
  ⟨0xF01E, 0xF0FF, fun w => .addI (fieldX w)⟩,
  ⟨0xF029, 0xF0FF, fun w => .ldF (fieldX w)⟩,
  ⟨0xF033, 0xF0FF, fun w => .ldB (fieldX w)⟩,
  ⟨0xF055, 0xF0FF, fun w => .stRegs (fieldX w)⟩,
  ⟨0xF065, 0xF0FF, fun w => .ldRegs (fieldX w)⟩]

/-- The 34 instruction rows, pairwise disjoint (30_encoding R76). -/
def instructionRows : List Row := rowsPlain ++ rowsAlu ++ rowsUpper ++ rowsSub

/-- The row `0nnn`, of lower priority than `00E0` and `00EE` (30_encoding R76). -/
def sysRow : Row := ⟨0x0000, 0xF000, fun w => .sys (fieldNNN w)⟩

/-- The fallback: it matches every word, and applies when no row before it does (30_encoding R76). -/
def fallbackRow : Row := ⟨0x0000, 0x0000, fun w => .dw w⟩

/-- The whole table in priority order. -/
def opcodeRows : List Row := instructionRows ++ [sysRow, fallbackRow]

/-- The first row that matches; the fallback matches every word. -/
def decodeWord (op : Word) : Instr :=
  match opcodeRows.find? (fun r => r.matches op) with
  | some r => r.build op
  | none => .dw op

/-! ## Bytes -/

/-- Why a list of bytes holds no instruction. -/
inductive DecodeError where
  /-- Fewer than the two bytes of a word (30_encoding R70). -/
  | truncated
  deriving DecidableEq, Repr

/-- Two bytes as a word, the first the high part (20_memory R53). -/
def wordOfBytes (hi lo : Byte) : Word := hi ++ lo

/-- The bytes of a word in the order memory holds them (20_memory R53). -/
def bytesOfWord (w : Word) : List Byte := [w.extractLsb' 8 8, w.extractLsb' 0 8]

/-- The instruction at the head of a list of bytes, and the bytes after it. -/
def decode : List Byte → Except DecodeError (Instr × List Byte)
  | hi :: lo :: rest => .ok (decodeWord (wordOfBytes hi lo), rest)
  | _ => .error .truncated

/-- The decoder on a word numbered as spec/opcode_table.json numbers it: the low `nbits` bits of `w`,
laid out high byte first. A word has 16 bits, so `nbits` above 16 names no instruction (log 16). -/
def decodeTableWord (nbits w : Nat) : Option Instr :=
  if nbits ≤ 16 then
    match decode (bytesOfWord (BitVec.ofNat 16 (w % 2 ^ nbits))) with
    | .ok (i, _) => some i
    | .error _ => none
  else none

/-! ## Encoding (30_encoding R72) -/

/-- Format `A`: a family nibble and an address. -/
def wordA (family : Nibble) (nnn : Addr12) : Word := family ++ nnn
/-- Formats `XK` and `X`: a family nibble, a register and a byte. -/
def wordXK (family x : Nibble) (kk : Byte) : Word := wordA family (x ++ kk)
/-- Format `XYN`: a family nibble, two registers and a nibble. -/
def wordXYN (family x y n : Nibble) : Word := wordXK family x (y ++ n)

/-- The word of an instruction. -/
def encode : Instr → Word
  | .cls => 0x00E0
  | .ret => 0x00EE
  | .jp nnn => wordA 0x1 nnn
  | .call nnn => wordA 0x2 nnn
  | .seImm x kk => wordXK 0x3 x kk
  | .sneImm x kk => wordXK 0x4 x kk
  | .seReg x y => wordXYN 0x5 x y 0x0
  | .ldImm x kk => wordXK 0x6 x kk
  | .addImm x kk => wordXK 0x7 x kk
  | .ldReg x y => wordXYN 0x8 x y 0x0
  | .orReg x y => wordXYN 0x8 x y 0x1
  | .andReg x y => wordXYN 0x8 x y 0x2
  | .xorReg x y => wordXYN 0x8 x y 0x3
  | .addReg x y => wordXYN 0x8 x y 0x4
  | .subReg x y => wordXYN 0x8 x y 0x5
  | .shr x y => wordXYN 0x8 x y 0x6
  | .subnReg x y => wordXYN 0x8 x y 0x7
  | .shl x y => wordXYN 0x8 x y 0xE
  | .sneReg x y => wordXYN 0x9 x y 0x0
  | .ldI nnn => wordA 0xA nnn
  | .jpV0 nnn => wordA 0xB nnn
  | .rnd x kk => wordXK 0xC x kk
  | .drw x y n => wordXYN 0xD x y n
  | .skp x => wordXK 0xE x 0x9E
  | .sknp x => wordXK 0xE x 0xA1
  | .ldVxDt x => wordXK 0xF x 0x07
  | .ldVxK x => wordXK 0xF x 0x0A
  | .ldDtVx x => wordXK 0xF x 0x15
  | .ldStVx x => wordXK 0xF x 0x18
  | .addI x => wordXK 0xF x 0x1E
  | .ldF x => wordXK 0xF x 0x29
  | .ldB x => wordXK 0xF x 0x33
  | .stRegs x => wordXK 0xF x 0x55
  | .ldRegs x => wordXK 0xF x 0x65
  | .sys nnn => wordA 0x0 nnn
  | .dw word => word

/-- The bytes of an instruction as memory holds them. -/
def encodeBytes (i : Instr) : List Byte := bytesOfWord (encode i)

end Sys2Proof
end

