-- ==== Sys2Proof/Machine/Flags.lean ====
section
/-!
DEFINITION. Every value an instruction writes to VF as a flag (10_state R23, 42_alu R133), and the
results that go with them. Operands are converted to numbers, computed exactly, and narrowed
(00_scope R12).
-/
namespace Sys2Proof.Machine

/-- A flag as the byte VF receives: 1 or 0. -/
def flagByte (b : Bool) : Byte := if b then 1 else 0

/-- `8xy4`: 1 when the exact sum exceeds 255 (42_alu R126). -/
def carryFlag (a b : Byte) : Byte := flagByte (decide (a.toNat + b.toNat > 255))

/-- `8xy5`: 1 when the subtraction does not borrow (42_alu R127). -/
def noBorrowFlag (a b : Byte) : Byte := flagByte (decide (a.toNat ≥ b.toNat))

/-- `8xy7`: 1 when `V[x] > V[y]`, as the source states it (42_alu R129, 90_conflicts C5). -/
def greaterFlag (a b : Byte) : Byte := flagByte (decide (a.toNat > b.toNat))

/-- `8xy6`: the bit shifted out, bit 0 (42_alu R128). -/
def lowBitFlag (a : Byte) : Byte := a &&& 1

/-- `8xyE`: the bit shifted out, bit 7 (42_alu R130). -/
def highBitFlag (a : Byte) : Byte := (a >>> 7) &&& 1

/-- `Fx1E`: 1 when the exact sum exceeds 0xFFF (43_index_memory R141). -/
def indexOverflowFlag (t : Nat) : Byte := flagByte (decide (t > 0xFFF))

/-- `Dxyn`: 1 when a lit pixel was toggled (40_display R94). -/
def collisionFlag (hit : Bool) : Byte := flagByte hit

/-- An exact sum stored in a byte (00_scope R12). -/
def addBytes (a b : Byte) : Byte := BitVec.ofNat 8 (a.toNat + b.toNat)

/-- An exact difference stored in a byte: `(a - b) mod 256` (00_scope R12). -/
def subBytes (a b : Byte) : Byte := BitVec.ofInt 8 (a.toNat - b.toNat)

/-- `a >> 1` (42_alu R128). -/
def shiftRightOne (a : Byte) : Byte := a >>> 1

/-- `(a << 1) mod 256` (42_alu R130). -/
def shiftLeftOne (a : Byte) : Byte := a <<< 1

end Sys2Proof.Machine
end

