-- ==== Sys2Proof/Config.lean ====
section
/-!
DEFINITION. What an implementation fixes (the parameters of 00_scope R7) and the free values of the
model. The parameters are plain data, each with the default R7 gives it; the free values have no body.
-/
namespace Sys2Proof

/-- `PRESENT_DIVIDER`, 1 or 9 (00_scope R7, 60_exceptions R189). -/
inductive PresentDivider where
  /-- 1: every cycle is a presentation point. -/
  | one
  /-- 9: every cycle that ticks is a presentation point. -/
  | nine
  deriving DecidableEq, Repr

/-- The parameters the CORE reads while it runs (00_scope R7). No step changes them. -/
structure Config where
  /-- `KEY_CHOICE` as a finite table: a set of keys (bit k = key k) and the member chosen from it. A set
  without an entry, or whose entry names no member, gets its lowest member, the default of R7
  (log 8). -/
  keyChoice : List (BitVec 16 × Nibble)
  /-- `I_MASK_AFTER_TRANSFER` (43_index_memory R144, R145). -/
  iMaskAfterTransfer : Bool
  /-- `PRESENT_DIVIDER` (60_exceptions R189). -/
  presentDivider : PresentDivider
  deriving DecidableEq, Repr

/-- The `stop` input of a cycle for which State lists no input: a free value, numbered by the cycle
(60_exceptions R196: the environment supplies the bit; log 1). -/
opaque Config.freeStop : Nat → Bool

/-- The `keys` input of a cycle for which State lists no input: a free value, numbered by the cycle
(00_scope R9 gives the input no law; log 2). -/
opaque Config.freeKeys : Nat → BitVec 16

/-- The `rnd` input of a cycle for which State lists no input: a free value, numbered by the cycle
("a draw with no law", 42_alu R131; log 2). -/
opaque Config.freeRnd : Nat → Byte

end Sys2Proof
end

