-- ==== Sys2Proof/Machine/Params.lean ====
section
/-!
DEFINITION. The defaults 00_scope R7 gives the parameters of the machine.
-/
namespace Sys2Proof.Machine

/-- Glyphs 0 to 7 of the default FONT (93_implementation_defined G1: PRESUMED there, "from general
knowledge, not in source"; log 9). -/
def fontGlyphsLow : List Byte := [
  0xF0, 0x90, 0x90, 0x90, 0xF0,
  0x20, 0x60, 0x20, 0x20, 0x70,
  0xF0, 0x10, 0xF0, 0x80, 0xF0,
  0xF0, 0x10, 0xF0, 0x10, 0xF0,
  0x90, 0x90, 0xF0, 0x10, 0x10,
  0xF0, 0x80, 0xF0, 0x10, 0xF0,
  0xF0, 0x80, 0xF0, 0x90, 0xF0,
  0xF0, 0x10, 0x20, 0x40, 0x40]

/-- Glyphs 8 to F of the default FONT (93_implementation_defined G1; log 9). -/
def fontGlyphsHigh : List Byte := [
  0xF0, 0x90, 0xF0, 0x90, 0xF0,
  0xF0, 0x90, 0xF0, 0x10, 0xF0,
  0xF0, 0x90, 0xF0, 0x90, 0x90,
  0xE0, 0x90, 0xE0, 0x90, 0xE0,
  0xF0, 0x80, 0x80, 0x80, 0xF0,
  0xE0, 0x90, 0x90, 0x90, 0xE0,
  0xF0, 0x80, 0xF0, 0x80, 0xF0,
  0xF0, 0x80, 0xF0, 0x80, 0x80]

/-- The default FONT, 80 bytes (00_scope R7). -/
def defaultFont : List Byte := fontGlyphsLow ++ fontGlyphsHigh

/-- The default of the other parameters (00_scope R7): the lowest key (an empty table), no mask,
`PRESENT_DIVIDER = 9`. -/
def defaultConfig : Config := ⟨[], false, .nine⟩

end Sys2Proof.Machine
end

