-- ==== Sys2Proof/Machine/Memory.lean ====
section
/-!
DEFINITION. The one address space of the machine (20_memory R50): 4096 bytes, held as the list of the
cells that differ from what the load leaves there, in rising address order.
-/
namespace Sys2Proof.Machine

/-- The highest address (20_memory R50). -/
def lastAddress : Nat := 4095

/-- What an address reads as that the list does not hold: the content after a load of the default FONT
and an empty ROM, the font at 0x000..0x04F and zero above (10_state R44, 20_memory R51; log 9). -/
def unlistedByte (a : Nat) : Byte := defaultFont.getD a 0

/-- The memory: (address, byte) pairs. -/
abbrev Memory := List Host.Cell

namespace Memory

/-- The byte at an address (20_memory R56). -/
def read : Memory → Nat → Byte
  | [], a => unlistedByte a
  | (b, v) :: m, a => if b = a then v else read m a

/-- The list with the cell of `a` put in its place. -/
def insert (a : Nat) (v : Byte) : Memory → Memory
  | [] => [(a, v)]
  | (b, w) :: m =>
    if a < b then (a, v) :: (b, w) :: m
    else if a = b then (a, v) :: m
    else (b, w) :: insert a v m

/-- The list without the cell of `a`. -/
def erase (a : Nat) : Memory → Memory
  | [] => []
  | (b, w) :: m => if b = a then erase a m else (b, w) :: erase a m

/-- The memory after one byte is written (20_memory R56), in canonical form again. -/
def write (m : Memory) (a : Nat) (v : Byte) : Memory :=
  if v = unlistedByte a then erase a m else insert a v m

/-- One-byte writes at ascending addresses (20_memory R55). -/
def writeBytes (m : Memory) (a : Nat) : List Byte → Memory
  | [] => m
  | v :: vs => writeBytes (write m a v) (a + 1) vs

/-- One-byte reads at ascending addresses (20_memory R55). -/
def readBytes (m : Memory) (a : Nat) : Nat → List Byte
  | 0 => []
  | n + 1 => read m a :: readBytes m (a + 1) n

/-- The canonical form from address `lo` up: strictly rising addresses, all in the address space, no
cell equal to what the address reads as unlisted. -/
def wfFrom (lo : Nat) : Memory → Bool
  | [] => true
  | (a, v) :: m => decide (lo ≤ a) && decide (a ≤ lastAddress) && v != unlistedByte a && wfFrom (a + 1) m

/-- The canonical form of a memory. -/
def wf (m : Memory) : Bool := wfFrom 0 m

end Memory

end Sys2Proof.Machine
end

