-- ==== Sys2Proof/Machine/State.lean ====
section
/-!
DEFINITION. The state of the machine: every component of 10_state R20, the spec's ports (00_scope R9)
and parameters (00_scope R7); the reasons a step can stop; the state after reset.
-/
namespace Sys2Proof.Machine

/-- What an instruction or a fetch raises (60_exceptions R177). `exec` answers these; the scheduler
turns each into the terminal status `faulted` and keeps the state (60_exceptions R178, R179; log 6),
so `step` itself never answers one. Each is safe: the spec itself ends the run there. -/
inductive Fault where
  /-- `2nnn` with SP = 16 (41_control_flow R103). Raised by `push`. Safe. -/
  | stackOverflow
  /-- `00EE` with SP = 0 (41_control_flow R104). Raised by `pop`. Safe. -/
  | stackUnderflow
  /-- An access of `n` bytes at `addr` that goes past 4095 (20_memory R52). Raised by the fetch, `Dxyn`,
  `Fx33`, `Fx55`, `Fx65`. Safe. -/
  | memoryBounds (addr n : Nat)
  /-- `Ex9E` or `ExA1` with a key number above 15 (44_keys_timers R150). Safe. -/
  | badKeyIndex (k : Byte)
  deriving DecidableEq, Repr

/-- Why a step has no meaning. -/
inductive Refusal where
  /-- The model gives the instruction no meaning; raised by no arm of `exec` (every instruction has
  its meaning). Safe. -/
  | notModelled (mnemonic : String)
  deriving DecidableEq, Repr

/-- The `status` component (10_state R41) with the information of 60_exceptions R177. `Waiting` is
`running` with the key wait active (10_state R41): see `statusPort`. -/
inductive Status where
  | running
  /-- `stop` ended the run in this cycle, counted from 1 (60_exceptions R172, R177; log 3). -/
  | stopped (cycle : Nat)
  /-- `Halted(ProgramHalted)`, with the pc of the tenth zero word (60_exceptions R177, R191). -/
  | halted (pc : Word)
  /-- `Faulted(cause, info)`: the cause, the pc, and the opcode but for a fetch (60_exceptions R177). -/
  | faulted (cause : Fault) (pc : Word) (opcode : Option Word)
  deriving DecidableEq, Repr

/-- The key wait (10_state R40). -/
structure Wait where
  active : Bool
  reg : Nibble
  deriving DecidableEq, Repr

/-- The inputs of one cycle (00_scope R9). -/
structure CycleInput where
  stop : Bool
  keys : BitVec 16
  rnd : Byte
  deriving DecidableEq, Repr

/-- The output ports as one cycle drives them (00_scope R9). -/
structure Outputs where
  /-- The beep pulse (60_exceptions R187). -/
  beep : Bool
  /-- The presented frame, if the cycle presents one (60_exceptions R189). -/
  frame : Option Frame
  /-- Opcode and pc of an unrecognized word, if the cycle executes one (45_unrecognized R163). -/
  diag : Option (Word × Word)
  deriving DecidableEq, Repr

/-- Nothing driven. -/
def Outputs.quiet : Outputs := ⟨false, none, none⟩

/-- The machine (10_state R20). The first sixteen fields are the spec's `MachineState`; `config` holds
the parameters of 00_scope R7, `out` and `rnd` the ports of 00_scope R9; `inputs` and `cycle` are the
model's own (logs 1 and 3). -/
structure State where
  /-- `MEM` (R43). -/
  mem : Memory
  /-- `V[0..15]`; `V[15]` is VF (R21, R23). -/
  v : Vector Byte 16
  /-- `I` (R29). -/
  i : Word
  /-- `pc` (R25). -/
  pc : Word
  /-- `STACK[0..15]` (R31). -/
  stack : Vector Word 16
  /-- `SP`, 0..16 (R32; log 12). -/
  sp : Fin 17
  /-- `DT` (R33). -/
  dt : Byte
  /-- `ST` (R34). -/
  st : Byte
  /-- `FB` (R35). -/
  fb : Frame
  /-- `KEYS`, bit k = key k pressed (R36). -/
  keys : BitVec 16
  /-- `PREV_KEYS` (R36). -/
  prevKeys : BitVec 16
  /-- `frameReady` (R37). -/
  frameReady : Bool
  /-- `ZC` (R38). -/
  zc : Nat
  /-- `DIV` (R39). -/
  div : Nat
  /-- `WAIT` (R40). -/
  wait : Wait
  /-- `status` (R41). -/
  status : Status
  /-- The parameters of 00_scope R7 (log 7). -/
  config : Config
  /-- What the last cycle drove on the output ports (log 5). -/
  out : Outputs
  /-- The `rnd` input as sampled in the current cycle (log 4). -/
  rnd : Byte
  /-- The inputs supplied for the coming cycles, oldest first (log 1). -/
  inputs : List CycleInput
  /-- The cycles begun since the load (log 3). -/
  cycle : Nat
  deriving DecidableEq, Repr

/-- The state after a load of the default FONT and the empty ROM (10_state R44, 70_reset_and_hazards
R200): the only reset (log 10). -/
def State.reset : State where
  mem := []
  v := Vector.replicate 16 0
  i := 0
  pc := 0x200
  stack := Vector.replicate 16 0
  sp := 0
  dt := 0
  st := 0
  fb := Vector.replicate 32 0
  keys := 0
  prevKeys := 0
  frameReady := false
  zc := 0
  div := 0
  wait := ⟨false, 0⟩
  status := .running
  config := defaultConfig
  out := Outputs.quiet
  rnd := 0
  inputs := []
  cycle := 0

end Sys2Proof.Machine
end

