-- ==== Sys2Proof/Machine/Operands.lean ====
section
/-!
DEFINITION. The operand forms: registers, immediates, addresses through `I`, decimal digits, sprite
pixels, key sets (30_encoding R73, 20_memory R66, 40_display R92 to R94, 43_index_memory R143).
-/
namespace Sys2Proof.Machine

/-! ## Registers and immediates -/

/-- The number of VF (10_state R23). -/
def flagReg : Nibble := 0xF

/-- Read `V[x]` (10_state R21). -/
def State.getV (s : State) (x : Nibble) : Byte := s.v[x.toNat]'x.isLt

/-- Write `V[x]` (10_state R21). -/
def State.setV (s : State) (x : Nibble) (b : Byte) : State :=
  { s with v := s.v.set x.toNat b x.isLt }

/-- `nnn` zero-extended to 16 bits (30_encoding R73). -/
def addressOf (nnn : Addr12) : Word := nnn.setWidth 16

/-! ## Addresses through I (20_memory R66) -/

/-- The address of byte 0 of an access through `I`; byte `k` is `k` above it. -/
def State.indexAddress (s : State) : Nat := s.i.toNat

/-- The number of bytes `Fx55` and `Fx65` move (20_memory R55). -/
def transferCount (x : Nibble) : Nat := x.toNat + 1

/-- Does an access of `n` bytes at `addr` go past 4095? No access of no bytes does (20_memory R52,
40_display R91). -/
def outOfBounds (addr n : Nat) : Bool := decide (n > 0) && decide (addr + n - 1 > lastAddress)

/-! ## Decimal digits (43_index_memory R143) -/

/-- Hundreds, tens, ones. -/
def bcdDigits (b : Byte) : List Byte :=
  [BitVec.ofNat 8 (b.toNat / 100), BitVec.ofNat 8 (b.toNat / 10 % 10), BitVec.ofNat 8 (b.toNat % 10)]

/-- The base of the glyph of a digit, `V[x] * 5`, not masked (43_index_memory R142). -/
def glyphAddress (b : Byte) : Word := BitVec.ofNat 16 (b.toNat * 5)

/-! ## Pixels (10_state R35) -/

/-- The clear framebuffer (40_display R90). -/
def clearFrame : Frame := Vector.replicate 32 0

/-- Is pixel (c, r) lit? No pixel outside the buffer is. -/
def pixel (fb : Frame) (c r : Nat) : Bool :=
  if h : r < 32 then (fb[r]'h).getLsbD c else false

/-- The framebuffer with pixel (c, r) toggled; outside the buffer there is none to toggle. -/
def togglePixel (fb : Frame) (c r : Nat) : Frame :=
  if h : r < 32 then fb.set r (fb[r]'h ^^^ (1#64 <<< c)) h else fb

/-- Does the coordinate lie in the 64 x 32 buffer? (40_display R93) -/
def onScreen (c r : Nat) : Bool := decide (c ≤ 63) && decide (r ≤ 31)

/-- Bit `7 - c` of a sprite byte is its pixel in column `c`: bit 7 is leftmost (40_display R92). -/
def spriteBit (b : Byte) (c : Nat) : Bool := b.getLsbD (7 - c)

/-- The framebuffer so far, and whether a lit pixel was toggled so far. -/
abbrev Canvas := Frame × Bool

/-- One set sprite bit at (c, r): dropped off the buffer, else a collision if the pixel is lit, and
the pixel toggled (40_display R91, R93, R94). -/
def plot (c r : Nat) (k : Canvas) : Canvas :=
  if onScreen c r then (togglePixel k.1 c r, k.2 || pixel k.1 c r) else k

/-- Columns `c`, `c + 1`, ... of one sprite row at row `r` of the buffer, the sprite's left edge at
`cx`. -/
def drawColumns (cx r : Nat) (b : Byte) : List Nat → Canvas → Canvas
  | [], k => k
  | c :: cs, k => drawColumns cx r b cs (if spriteBit b c then plot (cx + c) r k else k)

/-- The eight columns of a sprite row. -/
def spriteColumns : List Nat := [0, 1, 2, 3, 4, 5, 6, 7]

/-- The rows of a sprite from row `r` of the buffer down (40_display R91). -/
def drawRows (cx r : Nat) : List Byte → Canvas → Canvas
  | [], k => k
  | b :: bs, k => drawRows cx (r + 1) bs (drawColumns cx r b spriteColumns k)

/-! ## Keys (44_keys_timers R150, R154) -/

/-- The keys that went from released to pressed (44_keys_timers R154). -/
def State.newKeys (s : State) : BitVec 16 := s.keys &&& ~~~s.prevKeys

/-- The first key of a list that is in the set. -/
def firstKey (e : BitVec 16) : List Nat → Nibble
  | [] => 0
  | k :: ks => if e.getLsbD k then BitVec.ofNat 4 k else firstKey e ks

/-- The lowest key of a non-empty set (00_scope R7, the default of `KEY_CHOICE`). -/
def lowestKey (e : BitVec 16) : Nibble :=
  firstKey e [0, 1, 2, 3, 4, 5, 6, 7, 8, 9, 10, 11, 12, 13, 14, 15]

/-- The entry of a choice table for a set. -/
def tableChoice (e : BitVec 16) : List (BitVec 16 × Nibble) → Option Nibble
  | [] => none
  | (e', k) :: t => if e' = e then some k else tableChoice e t

/-- `KEY_CHOICE` of a non-empty set: the table's entry if it is a member, else the lowest member (log 8). -/
def chooseKey (c : Config) (e : BitVec 16) : Nibble :=
  match tableChoice e c.keyChoice with
  | some k => if e.getLsbD k.toNat then k else lowestKey e
  | none => lowestKey e

end Sys2Proof.Machine
end

