-- ==== Sys2Proof/Machine/Ops.lean ====
section
/-!
DEFINITION. The named operations over memory, registers, stack and status: the primitives of
00_scope R13, the stack controller (41_control_flow R103, R104), the end of a run by a fault
(60_exceptions R176, R178), the load (70_reset_and_hazards R200).
-/
namespace Sys2Proof.Machine

/-- What `exec` answers. -/
abbrev Result := Host.Outcome State Fault Refusal

/-! ## Raising (00_scope R13 `raise`) -/

/-- Go on with a value, or answer the fault that was raised. -/
def andThen {α : Type} (r : Except Fault α) (k : α → Result) : Result :=
  match r with
  | .ok a => k a
  | .error f => .fault f

/-! ## Program counter (10_state R26, R28; written modulo 2^16) -/

/-- `pc <- target`. -/
def State.setPc (s : State) (target : Word) : State := { s with pc := target }

/-- `pc <- pc + 2`. -/
def State.advance (s : State) : State := s.setPc (s.pc + 2)

/-- `pc <- pc + 4` when the condition holds, else `pc <- pc + 2` (41_control_flow R105). -/
def State.skipIf (s : State) (cond : Bool) : State := s.setPc (s.pc + if cond then 4 else 2)

/-! ## Stack controller -/

/-- `push(a)` (41_control_flow R103). -/
def State.push (s : State) (a : Word) : Except Fault State :=
  if h : s.sp.val < 16 then
    .ok { s with stack := s.stack.set s.sp.val a h, sp := ⟨s.sp.val + 1, by omega⟩ }
  else .error .stackOverflow

/-- `pop()`: the popped entry and the state after it; the entry is not cleared (41_control_flow R104). -/
def State.pop (s : State) : Except Fault (Word × State) :=
  if h : s.sp.val = 0 then .error .stackUnderflow
  else .ok (s.stack[s.sp.val - 1]'(by omega), { s with sp := ⟨s.sp.val - 1, by omega⟩ })

/-! ## Index register and timers -/

/-- `I <- w`. -/
def State.setI (s : State) (w : Word) : State := { s with i := w }

/-- `DT <- b`. -/
def State.setDt (s : State) (b : Byte) : State := { s with dt := b }

/-- `ST <- b`. -/
def State.setSt (s : State) (b : Byte) : State := { s with st := b }

/-- `I <- I_MASK_AFTER_TRANSFER ? (t & 0xFFF) : t` with `t = I + x + 1` (43_index_memory R144, R145). -/
def State.advanceIndex (s : State) (n : Nat) : State :=
  let t : Word := BitVec.ofNat 16 (s.i.toNat + n)
  s.setI (if s.config.iMaskAfterTransfer then t &&& 0xFFF else t)

/-! ## Memory (00_scope R13 `MemRead`, `MemWrite`; 20_memory R52) -/

/-- The `n` bytes at `addr`, or the fault of the whole access. -/
def State.memRead (s : State) (addr n : Nat) : Except Fault (List Byte) :=
  if outOfBounds addr n then .error (.memoryBounds addr n) else .ok (s.mem.readBytes addr n)

/-- The bytes written at `addr` up, or the fault of the whole access. -/
def State.memWrite (s : State) (addr : Nat) (bytes : List Byte) : Except Fault State :=
  if outOfBounds addr bytes.length then .error (.memoryBounds addr bytes.length)
  else .ok { s with mem := s.mem.writeBytes addr bytes }

/-- The 16-bit word at `pc`, big-endian (20_memory R53, 30_encoding R71). -/
def State.fetchWord (s : State) : Word :=
  wordOfBytes (s.mem.read s.pc.toNat) (s.mem.read (s.pc.toNat + 1))

/-! ## Register blocks (10_state R22) -/

/-- `V[0]` .. `V[n-1]`. -/
def State.regBlock (s : State) (n : Nat) : List Byte := s.v.toList.take n

/-- Registers from number `j` up loaded from a list, in ascending order; a byte for a register number
above 15, which no caller has, would be dropped. -/
def loadBlock (v : Vector Byte 16) (j : Nat) : List Byte → Vector Byte 16
  | [] => v
  | b :: bs => loadBlock (v.setIfInBounds j b) (j + 1) bs

/-- `V[0]` .. loaded from a list. -/
def State.setRegBlock (s : State) (bytes : List Byte) : State := { s with v := loadBlock s.v 0 bytes }

/-! ## Framebuffer (10_state R35, R37) -/

/-- `FB` replaced and `frameReady <- 1`. -/
def State.setFrame (s : State) (fb : Frame) : State := { s with fb := fb, frameReady := true }

/-! ## Keys (44_keys_timers) -/

/-- `KEYS[k]` for the key numbered by a byte, or `BadKeyIndex` (44_keys_timers R150). -/
def State.keyPressed (s : State) (k : Byte) : Except Fault Bool :=
  if k.toNat > 0xF then .error (.badKeyIndex k) else .ok (s.keys.getLsbD k.toNat)

/-- `WAIT <- w`. -/
def State.setWait (s : State) (w : Wait) : State := { s with wait := w }

/-- The key-wait completion check of a wait cycle (44_keys_timers R154). -/
def State.checkKeyWait (s : State) : State :=
  if s.newKeys = 0 then s
  else ((s.setV s.wait.reg ((chooseKey s.config s.newKeys).setWidth 8)).setWait
    ⟨false, s.wait.reg⟩).advance

/-! ## Diagnostic (45_unrecognized R162, R163) -/

/-- `emit diag(opcode, pc)`. -/
def State.emitDiag (s : State) (opcode : Word) : State :=
  { s with out := { s.out with diag := some (opcode, s.pc) } }

/-! ## The end of a run (60_exceptions R172, R176, R178, R191)

This is all the machine has of an exception entry: nothing is saved but the information in `status`, no
handler runs, and there is no return (60_exceptions R182, R183). -/

/-- `status <- Faulted(cause, info)`; nothing else changes (60_exceptions R176, R178). -/
def State.takeFault (s : State) (cause : Fault) (opcode : Option Word) : State :=
  { s with status := .faulted cause s.pc opcode }

/-- `status <- Halted(ProgramHalted)` (60_exceptions R191). -/
def State.halt (s : State) : State := { s with status := .halted s.pc }

/-- `status <- Stopped` (60_exceptions R172); the cycle is the one begun last (log 3). -/
def State.stopRun (s : State) : State := { s with status := .stopped s.cycle }

/-- Is the outcome terminal? (00_scope R15) -/
def Status.terminal : Status → Bool
  | .running => false
  | .stopped _ | .halted _ | .faulted _ _ _ => true

/-! ## The load (70_reset_and_hazards R200, R201) -/

/-- `RomTooLargeError(len(rom))`: no machine exists (70_reset_and_hazards R200). -/
inductive LoadError where
  | romTooLarge (len : Nat)
  deriving DecidableEq, Repr

/-- The largest ROM, `4096 - 512` bytes (00_scope R6). -/
def maxRom : Nat := 3584

/-- Memory after the load: zero, then the font, then the ROM from 0x200 (70_reset_and_hazards R200). The
empty list is zero outside 0x000..0x04F, and the 80 bytes of a font cover that range. -/
def loadedMemory (font : Vector Byte 80) (rom : List Byte) : Memory :=
  (Memory.writeBytes [] 0 font.toList).writeBytes 0x200 rom

/-- The load of a ROM, for a given FONT and given parameters (00_scope R7). -/
def load (font : Vector Byte 80) (config : Config) (rom : List Byte) : Except LoadError State :=
  if rom.length > maxRom then .error (.romTooLarge rom.length)
  else .ok { State.reset with mem := loadedMemory font rom, config := config }

/-! ## The `status` port (00_scope R9, R15) -/

/-- Run outcomes as 00_scope R15 lists them. -/
inductive RunOutcome where
  | running
  | waiting
  | stopped (cycle : Nat)
  | halted (pc : Word)
  | faulted (cause : Fault) (pc : Word) (opcode : Option Word)
  | loadFailed (error : LoadError)
  deriving DecidableEq, Repr

/-- What the `status` port shows of a machine (10_state R41). -/
def statusPort (s : State) : RunOutcome :=
  match s.status with
  | .running => if s.wait.active then .waiting else .running
  | .stopped n => .stopped n
  | .halted pc => .halted pc
  | .faulted f pc op => .faulted f pc op

/-- What the `status` port shows of a load (00_scope R15). -/
def loadOutcome : Except LoadError State → RunOutcome
  | .ok s => statusPort s
  | .error e => .loadFailed e

/-- The numeric code of a terminal outcome (60_exceptions R177). -/
def RunOutcome.code : RunOutcome → Option Nat
  | .running | .waiting => none
  | .stopped _ => some 0
  | .loadFailed (.romTooLarge _) => some 1
  | .faulted .stackOverflow _ _ => some 2
  | .faulted .stackUnderflow _ _ => some 3
  | .halted _ => some 4
  | .faulted (.memoryBounds _ _) _ _ => some 5
  | .faulted (.badKeyIndex _) _ _ => some 6

end Sys2Proof.Machine
end

