-- ==== Sys2Proof/Machine/Alu.lean ====
section
/-!
DEFINITION. The ALU and register instructions (spec/42_alu.md). The statements of a rule run in the order
written, each reading the state the earlier ones left (00_scope R14): in `8xy5`, `8xy6`, `8xy7` and
`8xyE` VF is written first and the operands are read after it.
-/
namespace Sys2Proof.Machine

/-- `6xkk` LD Vx, kk (R120). -/
def execLdImm (x : Nibble) (kk : Byte) (s : State) : Result := .next (s.setV x kk).advance

/-- `7xkk` ADD Vx, kk (R121): no flag. -/
def execAddImm (x : Nibble) (kk : Byte) (s : State) : Result :=
  .next (s.setV x (addBytes (s.getV x) kk)).advance

/-- `8xy0` LD Vx, Vy (R122). -/
def execLdReg (x y : Nibble) (s : State) : Result := .next (s.setV x (s.getV y)).advance

/-- `8xy1` OR Vx, Vy (R123): VF is not written. -/
def execOrReg (x y : Nibble) (s : State) : Result :=
  .next (s.setV x (s.getV x ||| s.getV y)).advance

/-- `8xy2` AND Vx, Vy (R124): VF is not written. -/
def execAndReg (x y : Nibble) (s : State) : Result :=
  .next (s.setV x (s.getV x &&& s.getV y)).advance

/-- `8xy3` XOR Vx, Vy (R125): VF is not written. -/
def execXorReg (x y : Nibble) (s : State) : Result :=
  .next (s.setV x (s.getV x ^^^ s.getV y)).advance

/-- `8xy4` ADD Vx, Vy (R126): the sum is held in a temporary, VF first, then `V[x]`. -/
def execAddReg (x y : Nibble) (s : State) : Result :=
  let sum := addBytes (s.getV x) (s.getV y)
  let flagged := s.setV flagReg (carryFlag (s.getV x) (s.getV y))
  .next (flagged.setV x sum).advance

/-- `8xy5` SUB Vx, Vy (R127). -/
def execSubReg (x y : Nibble) (s : State) : Result :=
  let flagged := s.setV flagReg (noBorrowFlag (s.getV x) (s.getV y))
  .next (flagged.setV x (subBytes (flagged.getV x) (flagged.getV y))).advance

/-- `8xy6` SHR Vx (R128): `y` is not read (30_encoding R74). -/
def execShr (x _y : Nibble) (s : State) : Result :=
  let flagged := s.setV flagReg (lowBitFlag (s.getV x))
  .next (flagged.setV x (shiftRightOne (flagged.getV x))).advance

/-- `8xy7` SUBN Vx, Vy (R129): the flag is the source's formula (90_conflicts C5). -/
def execSubnReg (x y : Nibble) (s : State) : Result :=
  let flagged := s.setV flagReg (greaterFlag (s.getV x) (s.getV y))
  .next (flagged.setV x (subBytes (flagged.getV y) (flagged.getV x))).advance

/-- `8xyE` SHL Vx (R130): `y` is not read (30_encoding R74). -/
def execShl (x _y : Nibble) (s : State) : Result :=
  let flagged := s.setV flagReg (highBitFlag (s.getV x))
  .next (flagged.setV x (shiftLeftOne (flagged.getV x))).advance

/-- `Cxkk` RND Vx, kk (R131): the `rnd` input of the cycle, as the scheduler sampled it. -/
def execRnd (x : Nibble) (kk : Byte) (s : State) : Result := .next (s.setV x (s.rnd &&& kk)).advance

end Sys2Proof.Machine
end

