-- ==== Sys2Proof/Machine/Control.lean ====
section
/-!
DEFINITION. Jumps, calls, returns and skips (spec/41_control_flow.md).
-/
namespace Sys2Proof.Machine

/-- `00EE` RET (R100): `pc <- pop() + 2`. -/
def execRet (s : State) : Result :=
  andThen s.pop fun popped => .next (popped.2.setPc (popped.1 + 2))

/-- `1nnn` JP nnn (R101). -/
def execJp (nnn : Addr12) (s : State) : Result := .next (s.setPc (addressOf nnn))

/-- `2nnn` CALL nnn (R102): the address of this word is pushed. -/
def execCall (nnn : Addr12) (s : State) : Result :=
  andThen (s.push s.pc) fun t => .next (t.setPc (addressOf nnn))

/-- `3xkk` SE Vx, kk (R106). -/
def execSeImm (x : Nibble) (kk : Byte) (s : State) : Result :=
  .next (s.skipIf (s.getV x == kk))

/-- `4xkk` SNE Vx, kk (R107). -/
def execSneImm (x : Nibble) (kk : Byte) (s : State) : Result :=
  .next (s.skipIf (s.getV x != kk))

/-- `5xy0` SE Vx, Vy (R108). -/
def execSeReg (x y : Nibble) (s : State) : Result :=
  .next (s.skipIf (s.getV x == s.getV y))

/-- `9xy0` SNE Vx, Vy (R109). -/
def execSneReg (x y : Nibble) (s : State) : Result :=
  .next (s.skipIf (s.getV x != s.getV y))

/-- `Bnnn` JP V0, nnn (R110): always V0; not wrapped to 12 bits. -/
def execJpV0 (nnn : Addr12) (s : State) : Result :=
  .next (s.setPc ((s.getV 0).setWidth 16 + addressOf nnn))

end Sys2Proof.Machine
end

