-- ==== Sys2Proof/Machine/Display.lean ====
section
/-!
DEFINITION. The display instructions (spec/40_display.md).
-/
namespace Sys2Proof.Machine

/-- `00E0` CLS (R90). -/
def execCls (s : State) : Result := .next (s.setFrame clearFrame).advance

/-- `Dxyn` DRW Vx, Vy, n (R91): coordinates before VF is written, the bounds check before any pixel
changes, VF once after all pixels. -/
def execDrw (x y n : Nibble) (s : State) : Result :=
  andThen (s.memRead s.indexAddress n.toNat) fun rows =>
    let drawn := drawRows (s.getV x).toNat (s.getV y).toNat rows (s.fb, false)
    .next ((s.setV flagReg (collisionFlag drawn.2)).setFrame drawn.1).advance

end Sys2Proof.Machine
end

