-- ==== Sys2Proof/Machine/Index.lean ====
section
/-!
DEFINITION. The index register and memory instructions (spec/43_index_memory.md).
-/
namespace Sys2Proof.Machine

/-- `Annn` LD I, nnn (R140). -/
def execLdI (nnn : Addr12) (s : State) : Result := .next (s.setI (addressOf nnn)).advance

/-- `Fx1E` ADD I, Vx (R141): the exact sum in a temporary, `I` cut to 12 bits, then VF. -/
def execAddI (x : Nibble) (s : State) : Result :=
  let t := s.i.toNat + (s.getV x).toNat
  .next ((s.setI (BitVec.ofNat 16 t &&& 0xFFF)).setV flagReg (indexOverflowFlag t)).advance

/-- `Fx29` LD F, Vx (R142). -/
def execLdF (x : Nibble) (s : State) : Result := .next (s.setI (glyphAddress (s.getV x))).advance

/-- `Fx33` LD B, Vx (R143). -/
def execLdB (x : Nibble) (s : State) : Result :=
  andThen (s.memWrite s.indexAddress (bcdDigits (s.getV x))) fun t => .next t.advance

/-- `Fx55` LD [I], Vx (R144). -/
def execStRegs (x : Nibble) (s : State) : Result :=
  andThen (s.memWrite s.indexAddress (s.regBlock (transferCount x))) fun t =>
    .next (t.advanceIndex (transferCount x)).advance

/-- `Fx65` LD Vx, [I] (R145). -/
def execLdRegs (x : Nibble) (s : State) : Result :=
  andThen (s.memRead s.indexAddress (transferCount x)) fun bytes =>
    .next ((s.setRegBlock bytes).advanceIndex (transferCount x)).advance

end Sys2Proof.Machine
end

