-- ==== Sys2Proof/Machine/Keys.lean ====
section
/-!
DEFINITION. The key and timer instructions (spec/44_keys_timers.md).
-/
namespace Sys2Proof.Machine

/-- `Ex9E` SKP Vx (R151): the level of the latch taken at the start of the cycle. -/
def execSkp (x : Nibble) (s : State) : Result :=
  andThen (s.keyPressed (s.getV x)) fun pressed => .next (s.skipIf pressed)

/-- `ExA1` SKNP Vx (R152). -/
def execSknp (x : Nibble) (s : State) : Result :=
  andThen (s.keyPressed (s.getV x)) fun pressed => .next (s.skipIf (!pressed))

/-- `Fx07` LD Vx, DT (R153). -/
def execLdVxDt (x : Nibble) (s : State) : Result := .next (s.setV x s.dt).advance

/-- `Fx0A` LD Vx, K (R154): the wait begins, `pc` stays; `State.checkKeyWait` ends it in a later cycle. -/
def execLdVxK (x : Nibble) (s : State) : Result := .next (s.setWait ⟨true, x⟩)

/-- `Fx15` LD DT, Vx (R155). -/
def execLdDtVx (x : Nibble) (s : State) : Result := .next (s.setDt (s.getV x)).advance

/-- `Fx18` LD ST, Vx (R156). -/
def execLdStVx (x : Nibble) (s : State) : Result := .next (s.setSt (s.getV x)).advance

end Sys2Proof.Machine
end

