-- ==== Sys2Proof/Machine/Unrecognized.lean ====
section
/-!
DEFINITION. SYS and the unrecognized words (spec/45_unrecognized.md): a diagnostic, then `pc + 2`.
-/
namespace Sys2Proof.Machine

/-- `0nnn` SYS nnn (R160): it does not call, jump or touch the stack. -/
def execSys (nnn : Addr12) (s : State) : Result := .next (s.emitDiag (addressOf nnn)).advance

/-- An unrecognized word (R162). -/
def execDw (word : Word) (s : State) : Result := .next (s.emitDiag word).advance

end Sys2Proof.Machine
end

