-- ==== Sys2Proof/Machine/Scheduler.lean ====
section
/-!
DEFINITION. One cycle of the scheduler (60_exceptions R170): stop, latch, key wait or fetch and execute,
divider and tick, presentation.
-/
namespace Sys2Proof.Machine

/-! ## The inputs of the cycle (00_scope R9) -/

/-- The inputs the environment supplies in a cycle that State lists none for: free values, all three
(60_exceptions R196; logs 1, 2). -/
def unlistedInput (cycle : Nat) : CycleInput :=
  ⟨Config.freeStop cycle, Config.freeKeys cycle, Config.freeRnd cycle⟩

/-- The inputs of the coming cycle: the oldest listed, else the free ones (logs 1, 2). -/
def State.nextInput (s : State) : CycleInput :=
  match s.inputs with
  | input :: _ => input
  | [] => unlistedInput s.cycle

/-- The model's bookkeeping of a cycle that begins: its inputs are taken from the list, it is counted,
and nothing is driven yet on the output ports. -/
def State.beginCycle (s : State) : State :=
  { s with inputs := s.inputs.tail, cycle := s.cycle + 1, out := Outputs.quiet }

/-- Step 3: `PREV_KEYS <- KEYS; KEYS <- keys` (60_exceptions R173); `rnd` is sampled with them. -/
def State.latch (s : State) (input : CycleInput) : State :=
  { s with prevKeys := s.keys, keys := input.keys, rnd := input.rnd }

/-! ## Steps 5 and 6 -/

/-- One tick of both timers (60_exceptions R185, R187). -/
def State.tick (s : State) : State :=
  { s with
    dt := if s.dt = 0 then 0 else s.dt - 1
    st := if s.st = 0 then 0 else s.st - 1
    out := { s.out with beep := s.out.beep || s.st == 1 } }

/-- Does the divider step of this cycle tick? (60_exceptions R186) -/
def State.ticks (s : State) : Bool := s.div + 1 == 9

/-- Step 5: the divider, and the tick at 9 (60_exceptions R186). -/
def State.divide (s : State) : State :=
  if s.ticks then { s with div := 0 }.tick else { s with div := s.div + 1 }

/-- Step 6 at a presentation point: a copy of `FB` is driven if `frameReady` (60_exceptions R189). -/
def State.present (s : State) : State :=
  if s.frameReady then { s with out := { s.out with frame := some s.fb }, frameReady := false } else s

/-- Is a cycle a presentation point, given whether it ticks? (60_exceptions R189) -/
def presentationPoint (d : PresentDivider) (ticked : Bool) : Bool :=
  match d with
  | .one => true
  | .nine => ticked

/-- Steps 5 and 6 of a cycle that does not end the run. -/
def State.endCycle (s : State) : State :=
  if presentationPoint s.config.presentDivider s.ticks then s.divide.present else s.divide

/-! ## Step 4 -/

/-- Step 4c: the halt detector's count (60_exceptions R191). -/
def State.countFetch (s : State) (opcode : Word) : State :=
  { s with zc := if opcode = 0 then s.zc + 1 else 0 }

/-- Step 4e and what follows it: the scheduler alone turns a raised fault into the terminal status
(60_exceptions R178, R179). -/
def runInstruction (opcode : Word) (s : State) : Result :=
  match exec (decodeWord opcode) s with
  | .next t => .next t.endCycle
  | .fault f => .next (s.takeFault f (some opcode))
  | .refused r => .refused r

/-- Steps 4a to 4e for a fetched word (60_exceptions R170, R191). -/
def runFetched (opcode : Word) (s : State) : Result :=
  let counted := s.countFetch opcode
  if counted.zc = 10 then .next counted.halt else runInstruction opcode counted

/-- Step 4 without a key wait (60_exceptions R170). -/
def fetchAndRun (s : State) : Result :=
  if outOfBounds s.pc.toNat 2 then .next (s.takeFault (.memoryBounds s.pc.toNat 2) none)
  else runFetched s.fetchWord s

/-- Steps 3 to 6 (60_exceptions R170). -/
def runCycle (input : CycleInput) (s : State) : Result :=
  let latched := s.latch input
  if latched.wait.active then .next latched.checkKeyWait.endCycle else fetchAndRun latched

/-- One cycle (60_exceptions R170). A terminal state stays, and drives nothing (R171). -/
def cycle (s : State) : Result :=
  if s.status.terminal then .next { s with out := Outputs.quiet }
  else
    let input := s.nextInput
    let begun := s.beginCycle
    if input.stop then .next begun.stopRun else runCycle input begun

/-! ## Placing an instruction (log 11) -/

/-- `s` with a word stored where the next cycle fetches, and that cycle bound to run it: a running
machine, not in a key wait, no stop requested in the coming cycle, `pc` where a word can be fetched, and
a halt detector that one more zero word does not fill. In a state that has all these, only memory
changes. An unlisted input is listed with its free keys and rnd, since its `stop` is free. -/
def State.placeWord (s : State) (w : Word) : State :=
  let pc : Word := if outOfBounds s.pc.toNat 2 then 0x200 else s.pc
  { s with
    mem := s.mem.writeBytes pc.toNat (bytesOfWord w)
    pc := pc
    status := .running
    wait := { s.wait with active := false }
    zc := if s.zc < 9 then s.zc else 0
    inputs := match s.inputs with
      | input :: rest => { input with stop := false } :: rest
      | [] => [{ unlistedInput s.cycle with stop := false }] }

end Sys2Proof.Machine
end

