-- ==== Sys2Proof/Machine/Step.lean ====
section
/-!
DEFINITION. One step of the machine is one cycle of the scheduler (00_scope R8).
-/
namespace Sys2Proof.Machine

/-- One cycle. -/
def step (s : State) : Host.Outcome State Fault Refusal := cycle s

/-- `s` with the word of the low `nbits` bits of `w` as the instruction the very next step runs (log 11). -/
def State.withFetchWord (s : State) (nbits w : Nat) : State :=
  s.placeWord (BitVec.ofNat 16 (w % 2 ^ nbits))

end Sys2Proof.Machine
end

