-- ==== Sys2Proof/Safety.lean ====
section
/-!
DEFINITION. What claims about the machine are stated in: the invariant of a run, what a run's outcomes
are, and which parts of the state an instruction may touch.
-/
namespace Sys2Proof.Machine

/-- The run has ended by a halt (60_exceptions R191). -/
def Status.isHalted : Status → Bool
  | .halted _ => true
  | .running | .stopped _ | .faulted _ _ _ => false

/-- The run has ended by a fault (60_exceptions R176). -/
def Status.isFaulted : Status → Bool
  | .faulted _ _ _ => true
  | .running | .stopped _ | .halted _ => false

/-- What holds in every state a run reaches. -/
structure State.Inv (s : State) : Prop where
  /-- Memory is in its canonical form. -/
  memWf : s.mem.wf = true
  /-- `I` never exceeds 0x1000 (10_state R30). -/
  indexBound : s.i.toNat ≤ 0x1000
  /-- The largest `pc` an instruction can write is 0x10FE (10_state R28). -/
  pcBound : s.pc.toNat ≤ 0x10FE
  /-- A stack entry is the address of a word that was fetched, or the reset value (41_control_flow R102). -/
  stackBound : ∀ j (h : j < 16), (s.stack[j]'h).toNat ≤ 0xFFE
  /-- `ZC` is 10 exactly when the halt detector ended the run, and below 10 otherwise (10_state R38). -/
  zeroCount : if s.status.isHalted then s.zc = 10 else s.zc < 10
  /-- `DIV` is in 0..8 (10_state R39). -/
  divBound : s.div ≤ 8
  /-- A key wait stands at the `Fx0A` at `pc` with its register (10_state R40). -/
  waitWord : s.wait.active = true →
    s.pc.toNat ≤ 0xFFE ∧ decodeWord s.fetchWord = .ldVxK s.wait.reg
  /-- A machine that has ended drives nothing (60_exceptions R171, R180). -/
  endQuiet : s.status.terminal = true → s.out = Outputs.quiet

/-- The run has not ended in a fault. -/
def State.Safe (s : State) : Prop := s.status.isFaulted = false

/-- The cycle that follows fetches and runs a word: a running machine outside a key wait, without a stop
request, with a word to fetch (60_exceptions R170). -/
structure State.Runs (s : State) : Prop where
  running : s.status = .running
  noStop : s.nextInput.stop = false
  noWait : s.wait.active = false
  inBounds : s.pc.toNat + 1 ≤ 4095

/-- The state after the key latch, as an update of `s`: `PREV_KEYS <- KEYS; KEYS <- keys` and the cycle's
`rnd` (60_exceptions R170 step 3, R173), nothing driven yet, and the model's bookkeeping of the inputs
(logs 1, 3, 4, 5). -/
def State.afterLatch (s : State) : State :=
  { s with
    prevKeys := s.keys
    keys := s.nextInput.keys
    rnd := s.nextInput.rnd
    out := ⟨false, none, none⟩
    inputs := s.inputs.tail
    cycle := s.cycle + 1 }

/-- The state in which the cycle's instruction executes, as an update of `s`: after the latch, with the
fetched word counted by the halt detector (60_exceptions R170 step 4c). -/
def State.atExecute (s : State) : State :=
  { s.afterLatch with zc := if s.fetchWord = 0 then s.zc + 1 else 0 }

/-! ## Instructions by what they write -/

/-- The instructions that write VF as a side effect (10_state R23). -/
def writesFlag : Instr → Bool
  | .addReg _ _ | .subReg _ _ | .shr _ _ | .subnReg _ _ | .shl _ _ => true
  | .drw _ _ _ | .addI _ => true
  | .cls | .ret | .jp _ | .call _ | .seImm _ _ | .sneImm _ _ | .seReg _ _ | .sneReg _ _ => false
  | .ldImm _ _ | .addImm _ _ | .ldReg _ _ | .orReg _ _ | .andReg _ _ | .xorReg _ _ => false
  | .ldI _ | .jpV0 _ | .rnd _ _ | .skp _ | .sknp _ | .ldVxDt _ | .ldVxK _ => false
  | .ldDtVx _ | .ldStVx _ | .ldF _ | .ldB _ | .stRegs _ | .ldRegs _ | .sys _ | .dw _ => false

/-- Is `V[z]` a destination of the instruction? `Fx65` has `V[0]` .. `V[x]`; `Fx0A` writes its register
only in the cycle that ends the wait (10_state R22, R23). -/
def isDestination (z : Nibble) : Instr → Bool
  | .ldImm x _ | .addImm x _ | .rnd x _ => z == x
  | .ldReg x _ | .orReg x _ | .andReg x _ | .xorReg x _ => z == x
  | .addReg x _ | .subReg x _ | .shr x _ | .subnReg x _ | .shl x _ => z == x
  | .ldVxDt x => z == x
  | .ldRegs x => decide (z.toNat ≤ x.toNat)
  | .cls | .ret | .jp _ | .call _ | .seImm _ _ | .sneImm _ _ | .seReg _ _ | .sneReg _ _ => false
  | .ldI _ | .jpV0 _ | .drw _ _ _ | .skp _ | .sknp _ | .ldVxK _ => false
  | .ldDtVx _ | .ldStVx _ | .addI _ | .ldF _ | .ldB _ | .stRegs _ | .sys _ | .dw _ => false

/-- The bytes an instruction stores to: the first address and the count, as the meanings of `Fx33` and
`Fx55` compute them; no other instruction stores (20_memory R66). -/
def storedBytes (i : Instr) (s : State) : Option (Nat × Nat) :=
  match i with
  | .ldB _ => some (s.indexAddress, 3)
  | .stRegs x => some (s.indexAddress, transferCount x)
  | .cls | .ret | .jp _ | .call _ | .seImm _ _ | .sneImm _ _ | .seReg _ _ | .sneReg _ _ => none
  | .ldImm _ _ | .addImm _ _ | .ldReg _ _ | .orReg _ _ | .andReg _ _ | .xorReg _ _ => none
  | .addReg _ _ | .subReg _ _ | .shr _ _ | .subnReg _ _ | .shl _ _ | .rnd _ _ | .drw _ _ _ => none
  | .ldI _ | .jpV0 _ | .skp _ | .sknp _ | .ldVxDt _ | .ldVxK _ | .ldDtVx _ | .ldStVx _ => none
  | .addI _ | .ldF _ | .ldRegs _ | .sys _ | .dw _ => none

/-! ## The unrecognized words as 30_encoding R78 lists them -/

/-- A `0nnn` word other than `00E0` and `00EE`. -/
def ListedSys (w : Word) : Prop := ∃ nnn : Addr12, w = wordA 0x0 nnn ∧ w ≠ 0x00E0#16 ∧ w ≠ 0x00EE#16

/-- A listed word of the families 5, 8, 9, E and F. -/
def ListedOther (w : Word) : Prop :=
  (∃ x y n : Nibble, n ≠ 0 ∧ (w = wordXYN 0x5 x y n ∨ w = wordXYN 0x9 x y n)) ∨
  (∃ x y n : Nibble, n ∈ [0x8#4, 0x9#4, 0xA#4, 0xB#4, 0xC#4, 0xD#4, 0xF#4] ∧ w = wordXYN 0x8 x y n) ∨
  (∃ (x : Nibble) (k : Byte), k ∉ [0x9E#8, 0xA1#8] ∧ w = wordXK 0xE x k) ∨
  (∃ (x : Nibble) (k : Byte),
    k ∉ [0x07#8, 0x0A#8, 0x15#8, 0x18#8, 0x1E#8, 0x29#8, 0x33#8, 0x55#8, 0x65#8] ∧ w = wordXK 0xF x k)

/-! ## What a statement says of an instruction -/

/-- Every word the (match, mask) pair matches decodes to what `build` reads from it (30_encoding R75). -/
def EncodedBy (pattern mask : Word) (build : Word → Instr) : Prop :=
  ∀ w : Word, w &&& mask = pattern → decodeWord w = build w

/-- Every component but `pc` is unchanged. -/
def OnlyPc (s t : State) : Prop := t = { s with pc := t.pc }

/-- Every component but the V registers and `pc` is unchanged. -/
def OnlyRegsPc (s t : State) : Prop := t = { s with v := t.v, pc := t.pc }

/-- Every component but `I` and `pc` is unchanged. -/
def OnlyIndexPc (s t : State) : Prop := t = { s with i := t.i, pc := t.pc }

/-- Every V register but `V[x]` is unchanged. -/
def OtherRegsKept (s t : State) (x : Nibble) : Prop := ∀ z : Nibble, z ≠ x → t.getV z = s.getV z

/-- Every V register but `V[x]` and VF is unchanged. -/
def OtherRegsButFlagKept (s t : State) (x : Nibble) : Prop :=
  ∀ z : Nibble, z ≠ x → z ≠ flagReg → t.getV z = s.getV z

/-- The sprite of `Dxyn` has a set bit that lands on (c, r): row `j` of the sprite is the byte at `I + j`,
its bit `7 - k` is column `k`, and the corner is at (`V[x]`, `V[y]`) (40_display R92, R93). -/
def SpriteCovers (s : State) (x y n : Nibble) (c r : Nat) : Prop :=
  ∃ j, j < n.toNat ∧ ∃ k, k < 8 ∧ (s.mem.read (s.i.toNat + j)).getLsbD (7 - k) = true ∧
    (s.getV x).toNat + k = c ∧ (s.getV y).toNat + j = r

end Sys2Proof.Machine
end

