-- ==== Sys2Proof/Certificates/Slice0/Obligations.lean ====
section
/-!
DEFINITION. The statements for the provers. Each docstring names the rules it formalises; where a clause
rests on a choice of the model, the docstring says so and names the log entry.
-/

open Sys2Proof Sys2Proof.Machine

/-! ## Encoding (spec/30_encoding.md) -/

/-- Decoding the word of a well-formed instruction gives the instruction back, every operand at every
value its field admits (30_encoding R72, R73, R75, R76).
Decoding by (match, mask) rows in that priority is the spec's decisions D4 and D28 (log 14). -/
def Obligations.EncodeThenDecodeIsIdentity : Prop :=
  ∀ i : Instr, i.wf = true → decodeWord (encode i) = i

/-- Every 16-bit word decodes to a well-formed instruction whose word it is: no bit is dropped and no word
is without a meaning (30_encoding R75, R78).
The rows and the fallback are the spec's decisions D4 and D28 (log 14). -/
def Obligations.DecodeThenEncodeIsIdentity : Prop :=
  ∀ w : Word, (decodeWord w).wf = true ∧ encode (decodeWord w) = w

/-- No word matches two of the 34 instruction rows; in the `0nnn` space exactly `00E0` and `00EE` are
instruction words, and every other `0nnn` word is SYS (30_encoding R76).
The priority is the spec's decisions D4 and D28 (log 14). -/
def Obligations.InstructionRowsAreDisjoint : Prop :=
  instructionRows.length = 34 ∧
  (instructionRows.Pairwise fun a b => ∀ w : Word, ¬(a.matches w = true ∧ b.matches w = true)) ∧
  (∀ w : Word, w &&& 0xF000#16 = 0#16 →
    decodeWord w = if w = 0x00E0#16 then .cls else if w = 0x00EE#16 then .ret else .sys (fieldNNN w))

/-- The words that match no instruction row are exactly those 30_encoding R78 lists: the `0nnn` words but
`00E0` and `00EE` (which decode to SYS), and the listed words of the families 5, 8, 9, E and F (which decode
to the fallback) (45_unrecognized R161).
Which of them decode to SYS and which to the fallback is 30_encoding R76 and 45_unrecognized R160, the spec's
decisions D4 and D28 (log 14). -/
def Obligations.UnrecognizedWordsAreTheListedOnes : Prop :=
  ∀ w : Word,
    ((∀ r ∈ instructionRows, r.matches w = false) ↔ ListedSys w ∨ ListedOther w) ∧
    (decodeWord w = .sys (fieldNNN w) ↔ ListedSys w) ∧
    (decodeWord w = .dw w ↔ ListedOther w)

/-- Words written out from the encodings of the spec decode to the instructions they stand for: one or more
for each of the sixteen families that nibble 3 selects (30_encoding R72, R77, R81). -/
def Obligations.SampleWordsDecode : Prop :=
  decodeWord 0b0000000011100000#16 = .cls ∧
  decodeWord 0b0000000011101110#16 = .ret ∧
  decodeWord 0b0000000100100011#16 = .sys 0x123 ∧
  decodeWord 0b0001001000110100#16 = .jp 0x234 ∧
  decodeWord 0b0010001100000000#16 = .call 0x300 ∧
  decodeWord 0b0011001101000010#16 = .seImm 0x3 0x42 ∧
  decodeWord 0b0100000000000001#16 = .sneImm 0x0 0x01 ∧
  decodeWord 0b0101000100100000#16 = .seReg 0x1 0x2 ∧
  decodeWord 0b0101000100100001#16 = .dw 0x5121 ∧
  decodeWord 0b0110101000101111#16 = .ldImm 0xA 0x2F ∧
  decodeWord 0b0111010100000011#16 = .addImm 0x5 0x03 ∧
  decodeWord 0b1000000100100101#16 = .subReg 0x1 0x2 ∧
  decodeWord 0b1001000100100000#16 = .sneReg 0x1 0x2 ∧
  decodeWord 0b1010001011110000#16 = .ldI 0x2F0 ∧
  decodeWord 0b1011001100000000#16 = .jpV0 0x300 ∧
  decodeWord 0b1100000000001111#16 = .rnd 0x0 0x0F ∧
  decodeWord 0b1101000000010101#16 = .drw 0x0 0x1 0x5 ∧
  decodeWord 0b1110000110011110#16 = .skp 0x1 ∧
  decodeWord 0b1111001001010101#16 = .stRegs 0x2

/-! ## Display (spec/40_display.md) -/

/-- `00E0` clears every pixel, sets `frameReady`, and changes nothing else but `pc` (40_display R90). -/
def Obligations.ClearScreenClearsEveryPixel : Prop :=
  EncodedBy 0x00E0 0xFFFF (fun _ => .cls) ∧
  ∀ s : State, ∃ t, exec .cls s = .next t ∧
    (∀ c r : Nat, pixel t.fb c r = false) ∧ t.frameReady = true ∧ t.pc = s.pc + 2 ∧
    t = { s with fb := t.fb, frameReady := t.frameReady, pc := t.pc }

/-- `Dxyn` in bounds toggles exactly the covered pixels of the buffer, sets VF to 1 when one of them was
lit and to 0 otherwise, and changes nothing else but `frameReady` and `pc`; out of bounds it raises
`MemoryBounds(I, n)` (40_display R91 to R94).
The bounds fault, the bit order and the edge cases are the spec's decisions D5, D15 and D16 (log 14). -/
def Obligations.DrawTogglesCoveredPixels : Prop :=
  EncodedBy 0xD000 0xF000 (fun w => .drw (fieldX w) (fieldY w) (fieldN w)) ∧
  ∀ (x y n : Nibble) (s : State),
    (n.toNat = 0 ∨ s.i.toNat + n.toNat - 1 ≤ 4095 → ∃ t, exec (.drw x y n) s = .next t ∧
      (∀ c r : Nat, c ≤ 63 → r ≤ 31 →
        (SpriteCovers s x y n c r → pixel t.fb c r = !pixel s.fb c r) ∧
        (¬SpriteCovers s x y n c r → pixel t.fb c r = pixel s.fb c r)) ∧
      ((∃ c r : Nat, c ≤ 63 ∧ r ≤ 31 ∧ SpriteCovers s x y n c r ∧ pixel s.fb c r = true) →
        t.getV flagReg = 1) ∧
      (¬(∃ c r : Nat, c ≤ 63 ∧ r ≤ 31 ∧ SpriteCovers s x y n c r ∧ pixel s.fb c r = true) →
        t.getV flagReg = 0) ∧
      OtherRegsKept s t flagReg ∧ t.frameReady = true ∧ t.pc = s.pc + 2 ∧
      t = { s with v := t.v, fb := t.fb, frameReady := t.frameReady, pc := t.pc }) ∧
    (0 < n.toNat ∧ 4095 < s.i.toNat + n.toNat - 1 →
      exec (.drw x y n) s = .fault (.memoryBounds s.i.toNat n.toNat))

/-- Drawing the same sprite at the same coordinates twice, with no other change to `FB`, `I` or the sprite
bytes between, restores `FB`, and the second draw sets VF to 1 exactly when the first turned some pixel of
the buffer on (40_display R95). `s1` is any state after the first draw with that framebuffer, that `I`,
those bytes and those coordinates.
R95 is marked derived by the spec, and rests on its decisions D15 and D16 (log 14). -/
def Obligations.DrawingTwiceRestoresFramebuffer : Prop :=
  ∀ (x y n : Nibble) (s t s1 : State), exec (.drw x y n) s = .next t →
    s1.fb = t.fb → s1.i = s.i → s1.getV x = s.getV x → s1.getV y = s.getV y →
    (∀ j, j < n.toNat → s1.mem.read (s.i.toNat + j) = s.mem.read (s.i.toNat + j)) →
    ∃ u, exec (.drw x y n) s1 = .next u ∧ u.fb = s.fb ∧
      (u.getV flagReg = 1 ↔
        ∃ c r : Nat, c ≤ 63 ∧ r ≤ 31 ∧ pixel s.fb c r = false ∧ pixel t.fb c r = true) ∧
      (u.getV flagReg = 1 ∨ u.getV flagReg = 0)

/-! ## Control flow (spec/41_control_flow.md) -/

/-- `1nnn` sets `pc` to `nnn` and `Bnnn` sets it to `V[0] + nnn`, not wrapped to 12 bits; nothing else
changes (41_control_flow R101, R110).
That targets are neither checked nor wrapped is the spec's decisions D5 and D6 (log 14). -/
def Obligations.JumpsSetOnlyPc : Prop :=
  EncodedBy 0x1000 0xF000 (fun w => .jp (fieldNNN w)) ∧
  EncodedBy 0xB000 0xF000 (fun w => .jpV0 (fieldNNN w)) ∧
  ∀ (nnn : Addr12) (s : State),
    (∃ t, exec (.jp nnn) s = .next t ∧ t.pc.toNat = nnn.toNat ∧ OnlyPc s t) ∧
    (∃ t, exec (.jpV0 nnn) s = .next t ∧ t.pc.toNat = (s.getV 0).toNat + nnn.toNat ∧ OnlyPc s t)

/-- `2nnn` below 16 entries stores its own address at `STACK[SP]`, adds 1 to `SP` and jumps; with 16
entries it raises `StackOverflow` (41_control_flow R102, R103).
The slot order is the spec's decision D7 (log 14). -/
def Obligations.CallPushesItsAddress : Prop :=
  EncodedBy 0x2000 0xF000 (fun w => .call (fieldNNN w)) ∧
  ∀ (nnn : Addr12) (s : State),
    (s.sp.val ≠ 16 → ∃ t, exec (.call nnn) s = .next t ∧
      t.stack.toList = s.stack.toList.set s.sp.val s.pc ∧ t.sp.val = s.sp.val + 1 ∧
      t.pc.toNat = nnn.toNat ∧ t = { s with stack := t.stack, sp := t.sp, pc := t.pc }) ∧
    (s.sp.val = 16 → exec (.call nnn) s = .fault .stackOverflow)

/-- `00EE` with an entry takes `SP` down by 1 and sets `pc` to the entry there plus 2, clearing no entry;
with none it raises `StackUnderflow` (41_control_flow R100, R104).
The slot order and the entry kept are the spec's decision D7 (log 14). -/
def Obligations.ReturnPopsAndAddsTwo : Prop :=
  EncodedBy 0x00EE 0xFFFF (fun _ => .ret) ∧
  ∀ s : State,
    (s.sp.val ≠ 0 → ∃ t, exec .ret s = .next t ∧ t.sp.val = s.sp.val - 1 ∧
      (∀ h : s.sp.val - 1 < 16, t.pc = s.stack[s.sp.val - 1]'h + 2) ∧
      t = { s with sp := t.sp, pc := t.pc }) ∧
    (s.sp.val = 0 → exec .ret s = .fault .stackUnderflow)

/-- A call, then any work that leaves `STACK` and `SP` as the call left them, then a return: execution
resumes at the word after the call, with the stack pointer of before (41_control_flow R100, R102).
The slot order is the spec's decision D7 (log 14). -/
def Obligations.CallThenReturnResumesAfterCall : Prop :=
  ∀ (nnn : Addr12) (s t u : State), exec (.call nnn) s = .next t → u.stack = t.stack → u.sp = t.sp →
    ∃ w, exec .ret u = .next w ∧ w.pc = s.pc + 2 ∧ w.sp = s.sp ∧ w.stack = u.stack

/-- `3xkk` skips when `V[x]` equals `kk` and `4xkk` when it does not; both change only `pc`
(41_control_flow R106, R107). -/
def Obligations.ImmediateSkipsCompare : Prop :=
  EncodedBy 0x3000 0xF000 (fun w => .seImm (fieldX w) (fieldKK w)) ∧
  EncodedBy 0x4000 0xF000 (fun w => .sneImm (fieldX w) (fieldKK w)) ∧
  ∀ (x : Nibble) (kk : Byte) (s : State),
    (∃ t, exec (.seImm x kk) s = .next t ∧ OnlyPc s t ∧
      (s.getV x = kk → t.pc = s.pc + 4) ∧ (s.getV x ≠ kk → t.pc = s.pc + 2)) ∧
    (∃ t, exec (.sneImm x kk) s = .next t ∧ OnlyPc s t ∧
      (s.getV x ≠ kk → t.pc = s.pc + 4) ∧ (s.getV x = kk → t.pc = s.pc + 2))

/-- `5xy0` skips when `V[x]` equals `V[y]` and `9xy0` when they differ; both change only `pc`; their words
with nibble 0 not 0 are unrecognized (41_control_flow R108, R109).
That those words are unrecognized rests on the spec's decision D4 (log 14). -/
def Obligations.RegisterSkipsCompare : Prop :=
  EncodedBy 0x5000 0xF00F (fun w => .seReg (fieldX w) (fieldY w)) ∧
  EncodedBy 0x9000 0xF00F (fun w => .sneReg (fieldX w) (fieldY w)) ∧
  (∀ w : Word, (w &&& 0xF000#16 = 0x5000#16 ∨ w &&& 0xF000#16 = 0x9000#16) → w &&& 0x000F#16 ≠ 0#16 →
    decodeWord w = .dw w) ∧
  ∀ (x y : Nibble) (s : State),
    (∃ t, exec (.seReg x y) s = .next t ∧ OnlyPc s t ∧
      (s.getV x = s.getV y → t.pc = s.pc + 4) ∧ (s.getV x ≠ s.getV y → t.pc = s.pc + 2)) ∧
    (∃ t, exec (.sneReg x y) s = .next t ∧ OnlyPc s t ∧
      (s.getV x ≠ s.getV y → t.pc = s.pc + 4) ∧ (s.getV x = s.getV y → t.pc = s.pc + 2))

/-! ## ALU and registers (spec/42_alu.md) -/

/-- `6xkk` writes the immediate and `8xy0` copies `V[y]` into `V[x]`; no other register, no flag and
nothing else but `pc` changes (42_alu R120, R122). -/
def Obligations.LoadsWriteOneRegister : Prop :=
  EncodedBy 0x6000 0xF000 (fun w => .ldImm (fieldX w) (fieldKK w)) ∧
  EncodedBy 0x8000 0xF00F (fun w => .ldReg (fieldX w) (fieldY w)) ∧
  (∀ (x : Nibble) (kk : Byte) (s : State), ∃ t, exec (.ldImm x kk) s = .next t ∧ t.getV x = kk ∧
    OtherRegsKept s t x ∧ t.pc = s.pc + 2 ∧ OnlyRegsPc s t) ∧
  (∀ (x y : Nibble) (s : State), ∃ t, exec (.ldReg x y) s = .next t ∧ t.getV x = s.getV y ∧
    OtherRegsKept s t x ∧ t.pc = s.pc + 2 ∧ OnlyRegsPc s t)

/-- `7xkk` adds modulo 256 and writes no flag (42_alu R121). -/
def Obligations.AddImmediateWrapsWithoutFlag : Prop :=
  EncodedBy 0x7000 0xF000 (fun w => .addImm (fieldX w) (fieldKK w)) ∧
  ∀ (x : Nibble) (kk : Byte) (s : State), ∃ t, exec (.addImm x kk) s = .next t ∧
    (t.getV x).toNat = ((s.getV x).toNat + kk.toNat) % 256 ∧
    OtherRegsKept s t x ∧ t.pc = s.pc + 2 ∧ OnlyRegsPc s t

/-- `8xy1`, `8xy2`, `8xy3` write the bitwise OR, AND, XOR of the old `V[x]` and `V[y]` to `V[x]`, bit by
bit, and no flag (42_alu R123, R124, R125). -/
def Obligations.LogicOperationsActBitwise : Prop :=
  EncodedBy 0x8001 0xF00F (fun w => .orReg (fieldX w) (fieldY w)) ∧
  EncodedBy 0x8002 0xF00F (fun w => .andReg (fieldX w) (fieldY w)) ∧
  EncodedBy 0x8003 0xF00F (fun w => .xorReg (fieldX w) (fieldY w)) ∧
  ∀ (x y : Nibble) (s : State),
    (∃ t, exec (.orReg x y) s = .next t ∧
      (∀ k, (t.getV x).getLsbD k = ((s.getV x).getLsbD k || (s.getV y).getLsbD k)) ∧
      OtherRegsKept s t x ∧ t.pc = s.pc + 2 ∧ OnlyRegsPc s t) ∧
    (∃ t, exec (.andReg x y) s = .next t ∧
      (∀ k, (t.getV x).getLsbD k = ((s.getV x).getLsbD k && (s.getV y).getLsbD k)) ∧
      OtherRegsKept s t x ∧ t.pc = s.pc + 2 ∧ OnlyRegsPc s t) ∧
    (∃ t, exec (.xorReg x y) s = .next t ∧
      (∀ k, (t.getV x).getLsbD k = ((s.getV x).getLsbD k != (s.getV y).getLsbD k)) ∧
      OtherRegsKept s t x ∧ t.pc = s.pc + 2 ∧ OnlyRegsPc s t)

/-- `8xy4`: `V[x]` is the sum modulo 256; VF is the carry, unless VF is the destination, when the result
overwrites the carry (42_alu R126).
With `x` = VF the order of the two writes decides, the spec's decision D3 (93_implementation_defined P6,
log 14). -/
def Obligations.AddRegistersSetsCarry : Prop :=
  EncodedBy 0x8004 0xF00F (fun w => .addReg (fieldX w) (fieldY w)) ∧
  ∀ (x y : Nibble) (s : State), ∃ t, exec (.addReg x y) s = .next t ∧
    (t.getV x).toNat = ((s.getV x).toNat + (s.getV y).toNat) % 256 ∧
    (x ≠ flagReg →
      (t.getV flagReg).toNat = if (s.getV x).toNat + (s.getV y).toNat > 255 then 1 else 0) ∧
    OtherRegsButFlagKept s t x ∧ t.pc = s.pc + 2 ∧ OnlyRegsPc s t

/-- `8xy5`: with `f` = 1 when `V[x] >= V[y]` and 0 otherwise, VF is `f` and `V[x]` is `V[x] - V[y]` modulo
256, where an operand that is VF is read after `f` was written to it (42_alu R127, 00_scope R14).
The order of the two writes is the spec's decision D3 (log 14). -/
def Obligations.SubtractSetsNoBorrow : Prop :=
  EncodedBy 0x8005 0xF00F (fun w => .subReg (fieldX w) (fieldY w)) ∧
  ∀ (x y : Nibble) (s : State), ∃ t, exec (.subReg x y) s = .next t ∧
    (let f := if (s.getV x).toNat ≥ (s.getV y).toNat then 1 else 0
     (x ≠ flagReg → y ≠ flagReg → (t.getV flagReg).toNat = f ∧
        (t.getV x).toNat = ((s.getV x).toNat + 256 - (s.getV y).toNat) % 256) ∧
     (x ≠ flagReg → y = flagReg → (t.getV flagReg).toNat = f ∧
        (t.getV x).toNat = ((s.getV x).toNat + 256 - f) % 256) ∧
     (x = flagReg → y ≠ flagReg → (t.getV flagReg).toNat = (f + 256 - (s.getV y).toNat) % 256) ∧
     (x = flagReg → y = flagReg → t.getV flagReg = 0)) ∧
    OtherRegsButFlagKept s t x ∧ t.pc = s.pc + 2 ∧ OnlyRegsPc s t

/-- `8xy7`: with `f` = 1 when `V[x] > V[y]` and 0 otherwise, VF is `f` and `V[x]` is `V[y] - V[x]` modulo
256, where an operand that is VF is read after `f` was written to it (42_alu R129, 00_scope R14).
The order of the two writes is the spec's decision D3 (log 14). -/
def Obligations.ReverseSubtractSetsGreater : Prop :=
  EncodedBy 0x8007 0xF00F (fun w => .subnReg (fieldX w) (fieldY w)) ∧
  ∀ (x y : Nibble) (s : State), ∃ t, exec (.subnReg x y) s = .next t ∧
    (let f := if (s.getV x).toNat > (s.getV y).toNat then 1 else 0
     (x ≠ flagReg → y ≠ flagReg → (t.getV flagReg).toNat = f ∧
        (t.getV x).toNat = ((s.getV y).toNat + 256 - (s.getV x).toNat) % 256) ∧
     (x ≠ flagReg → y = flagReg → (t.getV flagReg).toNat = f ∧
        (t.getV x).toNat = (f + 256 - (s.getV x).toNat) % 256) ∧
     (x = flagReg → y ≠ flagReg → (t.getV flagReg).toNat = ((s.getV y).toNat + 256 - f) % 256) ∧
     (x = flagReg → y = flagReg → t.getV flagReg = 0)) ∧
    OtherRegsButFlagKept s t x ∧ t.pc = s.pc + 2 ∧ OnlyRegsPc s t

/-- `8xy6` and `8xyE` shift `V[x]` by one, VF receiving the bit shifted out, and read no `y`; with VF as
`V[x]` the shift reads that bit, which leaves 0 after `8xy6` and twice the bit after `8xyE`
(42_alu R128, R130, 30_encoding R74).
The order of the two writes is the spec's decision D3 (log 14). -/
def Obligations.ShiftsMoveOneBitToFlag : Prop :=
  EncodedBy 0x8006 0xF00F (fun w => .shr (fieldX w) (fieldY w)) ∧
  EncodedBy 0x800E 0xF00F (fun w => .shl (fieldX w) (fieldY w)) ∧
  ∀ (x y : Nibble) (s : State),
    (∃ t, exec (.shr x y) s = .next t ∧
      (x ≠ flagReg → (t.getV flagReg).toNat = (s.getV x).toNat % 2 ∧
        (t.getV x).toNat = (s.getV x).toNat / 2) ∧
      (x = flagReg → t.getV flagReg = 0) ∧
      OtherRegsButFlagKept s t x ∧ t.pc = s.pc + 2 ∧ OnlyRegsPc s t) ∧
    (∃ t, exec (.shl x y) s = .next t ∧
      (x ≠ flagReg → (t.getV flagReg).toNat = (s.getV x).toNat / 128 ∧
        (t.getV x).toNat = (s.getV x).toNat * 2 % 256) ∧
      (x = flagReg → (t.getV flagReg).toNat = 2 * ((s.getV x).toNat / 128)) ∧
      OtherRegsButFlagKept s t x ∧ t.pc = s.pc + 2 ∧ OnlyRegsPc s t)

/-- `Cxkk` writes the cycle's random byte AND `kk`, whatever that byte is: the byte the state holds is the
`rnd` input of the cycle (42_alu R131, 10_state R47; that State holds the sampled input is log 4).
That the byte is an input is the spec's decision D18 (log 14). -/
def Obligations.RandomIsInputAndImmediate : Prop :=
  EncodedBy 0xC000 0xF000 (fun w => .rnd (fieldX w) (fieldKK w)) ∧
  (∀ s : State, s.atExecute.rnd = s.nextInput.rnd) ∧
  ∀ (x : Nibble) (kk : Byte) (s : State), ∃ t, exec (.rnd x kk) s = .next t ∧
    (∀ k, (t.getV x).getLsbD k = (s.rnd.getLsbD k && kk.getLsbD k)) ∧
    OtherRegsKept s t x ∧ t.pc = s.pc + 2 ∧ OnlyRegsPc s t

/-! ## Index register and memory (spec/43_index_memory.md) -/

/-- `Annn` loads `nnn` and `Fx29` loads `V[x] * 5`, not masked, into `I`; nothing else but `pc` changes
(43_index_memory R140, R142). -/
def Obligations.IndexLoadsAreExact : Prop :=
  EncodedBy 0xA000 0xF000 (fun w => .ldI (fieldNNN w)) ∧
  EncodedBy 0xF029 0xF0FF (fun w => .ldF (fieldX w)) ∧
  (∀ (nnn : Addr12) (s : State), ∃ t, exec (.ldI nnn) s = .next t ∧ t.i.toNat = nnn.toNat ∧
    t.pc = s.pc + 2 ∧ OnlyIndexPc s t) ∧
  (∀ (x : Nibble) (s : State), ∃ t, exec (.ldF x) s = .next t ∧ t.i.toNat = (s.getV x).toNat * 5 ∧
    t.pc = s.pc + 2 ∧ OnlyIndexPc s t)

/-- `Fx1E` adds `V[x]` to `I` modulo 4096 and sets VF to 1 when the exact sum exceeds 0xFFF, else to 0, the
addend being read before VF is written (43_index_memory R141). -/
def Obligations.AddIndexSetsOverflow : Prop :=
  EncodedBy 0xF01E 0xF0FF (fun w => .addI (fieldX w)) ∧
  ∀ (x : Nibble) (s : State), ∃ t, exec (.addI x) s = .next t ∧
    t.i.toNat = (s.i.toNat + (s.getV x).toNat) % 4096 ∧
    (t.getV flagReg).toNat = (if s.i.toNat + (s.getV x).toNat > 0xFFF then 1 else 0) ∧
    OtherRegsKept s t flagReg ∧ t.pc = s.pc + 2 ∧ t = { s with v := t.v, i := t.i, pc := t.pc }

/-- `Fx33` with three bytes left at `I` stores the hundreds, tens and ones of `V[x]` there and changes no
other byte, no register and not `I`; otherwise it raises `MemoryBounds(I, 3)` (43_index_memory R143).
The fault is the spec's decision D5 (20_memory R52, log 14). -/
def Obligations.DecimalStoresThreeDigits : Prop :=
  EncodedBy 0xF033 0xF0FF (fun w => .ldB (fieldX w)) ∧
  ∀ (x : Nibble) (s : State),
    (s.i.toNat + 2 ≤ 4095 → ∃ t, exec (.ldB x) s = .next t ∧
      (t.mem.read s.indexAddress).toNat = (s.getV x).toNat / 100 ∧
      (t.mem.read (s.indexAddress + 1)).toNat = (s.getV x).toNat / 10 % 10 ∧
      (t.mem.read (s.indexAddress + 2)).toNat = (s.getV x).toNat % 10 ∧
      (∀ a, a < s.indexAddress ∨ s.indexAddress + 3 ≤ a → t.mem.read a = s.mem.read a) ∧
      t.pc = s.pc + 2 ∧ t = { s with mem := t.mem, pc := t.pc }) ∧
    (4095 < s.i.toNat + 2 → exec (.ldB x) s = .fault (.memoryBounds s.i.toNat 3))

/-- `Fx55` with `x + 1` bytes left at `I` stores `V[0]` .. `V[x]` there, changes no other byte and no
register, and adds `x + 1` to `I`, cut to 12 bits exactly when `I_MASK_AFTER_TRANSFER`; otherwise it
raises `MemoryBounds(I, x + 1)` (43_index_memory R144).
The fault and the parameter are the spec's decisions D5 and D17 (log 14). -/
def Obligations.StoreBlockWritesRegisters : Prop :=
  EncodedBy 0xF055 0xF0FF (fun w => .stRegs (fieldX w)) ∧
  ∀ (x : Nibble) (s : State),
    (s.i.toNat + x.toNat ≤ 4095 → ∃ t, exec (.stRegs x) s = .next t ∧
      (∀ z : Nibble, z.toNat ≤ x.toNat → t.mem.read (s.indexAddress + z.toNat) = s.getV z) ∧
      (∀ a, a < s.indexAddress ∨ s.indexAddress + transferCount x ≤ a →
        t.mem.read a = s.mem.read a) ∧
      t.i.toNat = (if s.config.iMaskAfterTransfer then (s.i.toNat + x.toNat + 1) % 4096
        else s.i.toNat + x.toNat + 1) ∧
      t.pc = s.pc + 2 ∧ t = { s with mem := t.mem, i := t.i, pc := t.pc }) ∧
    (4095 < s.i.toNat + x.toNat →
      exec (.stRegs x) s = .fault (.memoryBounds s.i.toNat (x.toNat + 1)))

/-- `Fx65` with `x + 1` bytes left at `I` loads `V[0]` .. `V[x]` from them, leaves the other registers and
all memory, and adds `x + 1` to `I`, cut to 12 bits exactly when `I_MASK_AFTER_TRANSFER`; otherwise it
raises `MemoryBounds(I, x + 1)` (43_index_memory R145).
The fault and the parameter are the spec's decisions D5 and D17 (log 14). -/
def Obligations.LoadBlockReadsRegisters : Prop :=
  EncodedBy 0xF065 0xF0FF (fun w => .ldRegs (fieldX w)) ∧
  ∀ (x : Nibble) (s : State),
    (s.i.toNat + x.toNat ≤ 4095 → ∃ t, exec (.ldRegs x) s = .next t ∧
      (∀ z : Nibble, z.toNat ≤ x.toNat → t.getV z = s.mem.read (s.indexAddress + z.toNat)) ∧
      (∀ z : Nibble, x.toNat < z.toNat → t.getV z = s.getV z) ∧
      t.i.toNat = (if s.config.iMaskAfterTransfer then (s.i.toNat + x.toNat + 1) % 4096
        else s.i.toNat + x.toNat + 1) ∧
      t.pc = s.pc + 2 ∧ t = { s with v := t.v, i := t.i, pc := t.pc }) ∧
    (4095 < s.i.toNat + x.toNat →
      exec (.ldRegs x) s = .fault (.memoryBounds s.i.toNat (x.toNat + 1)))

/-! ## Keys and timers (spec/44_keys_timers.md) -/

/-- `Ex9E` skips when the key numbered `V[x]` is pressed in the latch and `ExA1` when it is not; both
change only `pc`, and both raise `BadKeyIndex` when `V[x]` exceeds 0xF (44_keys_timers R150 to R152).
The fault is the spec's decision D9 (log 14). -/
def Obligations.KeySkipsTestTheLatch : Prop :=
  EncodedBy 0xE09E 0xF0FF (fun w => .skp (fieldX w)) ∧
  EncodedBy 0xE0A1 0xF0FF (fun w => .sknp (fieldX w)) ∧
  ∀ (x : Nibble) (s : State),
    ((s.getV x).toNat ≤ 0xF →
      (∃ t, exec (.skp x) s = .next t ∧ OnlyPc s t ∧
        t.pc = s.pc + if s.keys.getLsbD (s.getV x).toNat = true then 4 else 2) ∧
      (∃ t, exec (.sknp x) s = .next t ∧ OnlyPc s t ∧
        t.pc = s.pc + if s.keys.getLsbD (s.getV x).toNat = false then 4 else 2)) ∧
    (0xF < (s.getV x).toNat →
      exec (.skp x) s = .fault (.badKeyIndex (s.getV x)) ∧
      exec (.sknp x) s = .fault (.badKeyIndex (s.getV x)))

/-- `Fx0A` starts the wait and leaves `pc`. A cycle of the wait latches the keys, fetches nothing, performs
the completion check and then the divider and presentation steps as any cycle does, all else as before: with
`E` the keys that are pressed in this cycle's latch and were released in the one before, no such key leaves
the latched state as it is; otherwise a member of `E` is written to the waiting register, the wait ends and
`pc` advances by 2. The member is the one KEY_CHOICE gives `E`, or the lowest where it gives none of `E`
(44_keys_timers R154, 60_exceptions R174, R188, 00_scope R7).
The mechanics and the default choice are the spec's decision D10, and that wait cycles tick is D11 (log 14);
the choice as a table is log 8. -/
def Obligations.KeyWaitEndsOnNewKey : Prop :=
  EncodedBy 0xF00A 0xF0FF (fun w => .ldVxK (fieldX w)) ∧
  (∀ (x : Nibble) (s : State), ∃ t, exec (.ldVxK x) s = .next t ∧ t.wait = ⟨true, x⟩ ∧
    t = { s with wait := t.wait }) ∧
  (∀ s : State, s.status = .running → s.nextInput.stop = false → s.wait.active = true →
    ((∀ k : Nat, ¬(s.nextInput.keys.getLsbD k = true ∧ s.keys.getLsbD k = false)) →
      step s = .next s.afterLatch.endCycle) ∧
    ((∃ k : Nat, s.nextInput.keys.getLsbD k = true ∧ s.keys.getLsbD k = false) →
      ∃ k : Nibble,
        s.nextInput.keys.getLsbD k.toNat = true ∧ s.keys.getLsbD k.toNat = false ∧
        (∀ j : Nibble, s.config.keyChoice.lookup (s.nextInput.keys &&& ~~~s.keys) = some j →
          s.nextInput.keys.getLsbD j.toNat = true → s.keys.getLsbD j.toNat = false → k = j) ∧
        ((∀ j : Nibble, s.config.keyChoice.lookup (s.nextInput.keys &&& ~~~s.keys) = some j →
            ¬(s.nextInput.keys.getLsbD j.toNat = true ∧ s.keys.getLsbD j.toNat = false)) →
          ∀ j : Nat, s.nextInput.keys.getLsbD j = true → s.keys.getLsbD j = false → k.toNat ≤ j) ∧
        step s = .next ({ s.afterLatch with
          v := s.v.set s.wait.reg.toNat (k.setWidth 8) s.wait.reg.isLt
          wait := ⟨false, s.wait.reg⟩
          pc := s.pc + 2 } : State).endCycle))

/-- `Fx07` reads `DT` into `V[x]`; `Fx15` and `Fx18` write `V[x]` to `DT` and `ST`; nothing else but `pc`
changes (44_keys_timers R153, R155, R156). -/
def Obligations.TimerMovesCopyOneByte : Prop :=
  EncodedBy 0xF007 0xF0FF (fun w => .ldVxDt (fieldX w)) ∧
  EncodedBy 0xF015 0xF0FF (fun w => .ldDtVx (fieldX w)) ∧
  EncodedBy 0xF018 0xF0FF (fun w => .ldStVx (fieldX w)) ∧
  ∀ (x : Nibble) (s : State),
    (∃ t, exec (.ldVxDt x) s = .next t ∧ t.getV x = s.dt ∧ OtherRegsKept s t x ∧ t.pc = s.pc + 2 ∧
      OnlyRegsPc s t) ∧
    (∃ t, exec (.ldDtVx x) s = .next t ∧ t.dt = s.getV x ∧ t.pc = s.pc + 2 ∧
      t = { s with dt := t.dt, pc := t.pc }) ∧
    (∃ t, exec (.ldStVx x) s = .next t ∧ t.st = s.getV x ∧ t.pc = s.pc + 2 ∧
      t = { s with st := t.st, pc := t.pc })

/-! ## SYS and unrecognized words (spec/45_unrecognized.md) -/

/-- A `0nnn` word but `00E0` and `00EE`, and every unrecognized word, drives a diagnostic with the opcode
and its `pc` and advances `pc` by 2; nothing else changes (45_unrecognized R160, R162).
That SYS does the same is the spec's decision D28 (log 14). -/
def Obligations.UnrecognizedWordsOnlyDiagnose : Prop :=
  (∀ (nnn : Addr12) (s : State), ∃ t, exec (.sys nnn) s = .next t ∧
    t.out = { s.out with diag := some (encode (.sys nnn), s.pc) } ∧ t.pc = s.pc + 2 ∧
    t = { s with out := t.out, pc := t.pc }) ∧
  (∀ (word : Word) (s : State), ∃ t, exec (.dw word) s = .next t ∧
    t.out = { s.out with diag := some (word, s.pc) } ∧ t.pc = s.pc + 2 ∧
    t = { s with out := t.out, pc := t.pc })

/-! ## Frames over all instructions -/

/-- A register that is no destination of the instruction keeps its value; VF does unless the instruction
is one of those that write it as a side effect (10_state R23). -/
def Obligations.RegistersChangeOnlyAsDestinations : Prop :=
  ∀ (i : Instr) (s t : State) (z : Nibble), exec i s = .next t → isDestination z i = false →
    (z = flagReg → writesFlag i = false) → t.getV z = s.getV z

/-- No instruction changes a byte of memory but the bytes it stores to, whose first address and count
`storedBytes` computes with the expressions of the meanings: `Fx33` and `Fx55` alone store (20_memory R66). -/
def Obligations.MemoryChangesOnlyWhereStored : Prop :=
  ∀ (i : Instr) (s t : State), exec i s = .next t → ∀ a : Nat,
    (∀ base n : Nat, storedBytes i s = some (base, n) → a < base ∨ base + n ≤ a) →
    t.mem.read a = s.mem.read a

/-- The framebuffer and `frameReady` change only by `00E0` and `Dxyn`, the stack and `SP` only by `2nnn` and
`00EE`, `I` only by `Annn`, `Fx1E`, `Fx29`, `Fx55`, `Fx65`, `DT` only by `Fx15`, `ST` only by `Fx18`, the
key wait only by `Fx0A`, the outputs only by an unrecognized word (10_state R29, R31, R33 to R37, R40). -/
def Obligations.SpecialStateChangesOnlyByItsWriters : Prop :=
  ∀ (i : Instr) (s t : State), exec i s = .next t →
    (i = .cls ∨ (∃ x y n, i = .drw x y n) ∨ (t.fb = s.fb ∧ t.frameReady = s.frameReady)) ∧
    (i = .ret ∨ (∃ nnn, i = .call nnn) ∨ (t.stack = s.stack ∧ t.sp = s.sp)) ∧
    ((∃ nnn, i = .ldI nnn) ∨ (∃ x, i = .addI x ∨ i = .ldF x ∨ i = .stRegs x ∨ i = .ldRegs x) ∨
      t.i = s.i) ∧
    ((∃ x, i = .ldDtVx x) ∨ t.dt = s.dt) ∧
    ((∃ x, i = .ldStVx x) ∨ t.st = s.st) ∧
    ((∃ x, i = .ldVxK x) ∨ t.wait = s.wait) ∧
    ((∃ nnn, i = .sys nnn) ∨ (∃ w, i = .dw w) ∨ t.out = s.out)

/-- No instruction writes the key latch, its previous value, the halt counter, the divider, the status or
the parameters (10_state R36, R42, 00_scope R7); nor the model's own input list, sampled byte and cycle
counter (logs 1, 3, 4). -/
def Obligations.SchedulerStateIsNotWrittenByInstructions : Prop :=
  ∀ (i : Instr) (s t : State), exec i s = .next t →
    t.keys = s.keys ∧ t.prevKeys = s.prevKeys ∧ t.zc = s.zc ∧ t.div = s.div ∧ t.status = s.status ∧
    t.config = s.config ∧ t.inputs = s.inputs ∧ t.rnd = s.rnd ∧ t.cycle = s.cycle

/-- An instruction raises a fault exactly in the cases of 60_exceptions R177: `2nnn` with a full stack, `00EE`
with an empty one, `Dxyn`, `Fx33`, `Fx55`, `Fx65` past address 4095, `Ex9E` and `ExA1` with a key number
above 0xF; no other instruction raises anything (60_exceptions R175, R177, R180).
`MemoryBounds` and `BadKeyIndex` are the spec's decisions D5 and D9 (log 14). -/
def Obligations.FaultsAriseOnlyAsTabulated : Prop :=
  ∀ (i : Instr) (s : State) (f : Fault), exec i s = .fault f ↔
    ((∃ nnn, i = .call nnn) ∧ s.sp.val = 16 ∧ f = .stackOverflow) ∨
    (i = .ret ∧ s.sp.val = 0 ∧ f = .stackUnderflow) ∨
    (∃ x y n, i = .drw x y n ∧ 0 < n.toNat ∧ 4095 < s.i.toNat + n.toNat - 1 ∧
      f = .memoryBounds s.i.toNat n.toNat) ∨
    ((∃ x, i = .ldB x) ∧ 4095 < s.i.toNat + 2 ∧ f = .memoryBounds s.i.toNat 3) ∨
    (∃ x, (i = .stRegs x ∨ i = .ldRegs x) ∧ 4095 < s.i.toNat + x.toNat ∧
      f = .memoryBounds s.i.toNat (x.toNat + 1)) ∨
    (∃ x, (i = .skp x ∨ i = .sknp x) ∧ 0xF < (s.getV x).toNat ∧ f = .badKeyIndex (s.getV x))

/-! ## The cycle (spec/60_exceptions.md) -/

/-- A step runs the decoded instruction: when the cycle fetches, the bytes at `pc` decode to a well-formed
instruction `i`, and the word is not the tenth zero word, the step is `exec i` at the state in which only the
inputs are taken, the keys latched and the word counted, then the divider, tick and presentation; a fault
becomes the terminal status with its `pc` and opcode, all else as before the instruction (60_exceptions R170,
R178). `atExecute` is written out as that update of `s`.
The order of the cycle and the precise fault are the spec's decisions D8, D11 and D25 (log 14). -/
def Obligations.StepRunsDecodedInstruction : Prop :=
  ∀ (s : State) (i : Instr), s.Runs → s.atExecute.zc ≠ 10 →
    decode [s.mem.read s.pc.toNat, s.mem.read (s.pc.toNat + 1)] = .ok (i, []) →
    i.wf = true ∧
    s.atExecute = { s with
      prevKeys := s.keys, keys := s.nextInput.keys, rnd := s.nextInput.rnd
      zc := if s.fetchWord = 0 then s.zc + 1 else 0
      out := ⟨false, none, none⟩, inputs := s.inputs.tail, cycle := s.cycle + 1 } ∧
    step s = match exec i s.atExecute with
      | .next t => .next t.endCycle
      | .fault f => .next { s.atExecute with status := .faulted f s.pc (some (encode i)) }
      | .refused r => .refused r

/-- Every step of every state answers a next state: no cycle is left without an outcome, since a fault is
the terminal status of a next state (60_exceptions R170, R176, R179).
That a fault is a status of the next state is log 6. -/
def Obligations.EveryStepAnswersNext : Prop :=
  ∀ s : State, ∃ t, step s = .next t

/-- Every step keeps the invariant: memory canonical, `I` at most 0x1000, `pc` at most 0x10FE, stack entries
fetchable addresses, `ZC` 10 exactly when halted, `DIV` at most 8, a wait standing at its `Fx0A`, nothing
driven once ended (10_state R28, R30, R38, R39, R40, 60_exceptions R171). -/
def Obligations.StepPreservesInvariant : Prop :=
  ∀ s t : State, s.Inv → step s = .next t → t.Inv

/-- The invariant holds at reset. -/
def Obligations.ResetSatisfiesInvariant : Prop := State.reset.Inv

/-- What reset leaves: `pc` 0x200, every other register, timer, counter, latch and pixel 0, no key wait,
`Running`, memory zero from 0x050 up (10_state R44). The font bytes are the model's default of the parameter
FONT (93_implementation_defined G1 says it is not in the source; log 9).
Memory is zero from 0x200 up because State.reset is the load of the empty ROM, the model's choice (log 10);
R44 puts the ROM there. The zero framebuffer, keys, `frameReady`, `ZC`, `DIV` and `WAIT` are the spec's
decision D13 (log 14). -/
def Obligations.ResetLeavesSpecValues : Prop :=
  State.reset.pc = 0x200 ∧ State.reset.i = 0 ∧ (∀ x : Nibble, State.reset.getV x = 0) ∧
  (∀ j : Nat, (h : j < 16) → State.reset.stack[j]'h = 0) ∧ State.reset.sp.val = 0 ∧
  State.reset.dt = 0 ∧ State.reset.st = 0 ∧ (∀ c r : Nat, pixel State.reset.fb c r = false) ∧
  State.reset.keys = 0 ∧ State.reset.prevKeys = 0 ∧ State.reset.frameReady = false ∧
  State.reset.zc = 0 ∧ State.reset.div = 0 ∧ State.reset.wait = ⟨false, 0⟩ ∧
  State.reset.status = .running ∧ (∀ a : Nat, 80 ≤ a → State.reset.mem.read a = 0) ∧
  (∀ a : Nat, a < 80 → State.reset.mem.read a = defaultFont.getD a 0)

/-- A load that succeeds leaves memory as 70_reset_and_hazards R200 lists it: the font at 0x000, zero to
0x1FF, the ROM at 0x200 and zero above, in a state that meets the invariant and is in all else the reset
state with the given parameters (10_state R44).
Values R44 grounds in the spec's decision D13 are among the reset values (log 14). -/
def Obligations.LoadLaysOutMemory : Prop :=
  ∀ (font : Vector Byte 80) (config : Config) (rom : List Byte) (s : State),
    load font config rom = .ok s →
    (∀ a : Nat, (h : a < 80) → s.mem.read a = font[a]'h) ∧
    (∀ a : Nat, 80 ≤ a → a < 0x200 → s.mem.read a = 0) ∧
    (∀ k : Nat, (h : k < rom.length) → s.mem.read (0x200 + k) = rom[k]'h) ∧
    (∀ a : Nat, 0x200 + rom.length ≤ a → s.mem.read a = 0) ∧
    s = { State.reset with mem := s.mem, config := config } ∧ s.Inv

/-- A ROM of more than 3584 bytes is refused with `RomTooLargeError`, and any other is accepted
(70_reset_and_hazards R201).
The boundaries are the spec's decision D27 (log 14). -/
def Obligations.LoadRefusesOnlyLargeRoms : Prop :=
  ∀ (font : Vector Byte 80) (config : Config) (rom : List Byte),
    (rom.length > 3584 → load font config rom = .error (.romTooLarge rom.length)) ∧
    (rom.length ≤ 3584 → ∃ s, load font config rom = .ok s)

/-- A terminal state is left unchanged by every later cycle, which drives no `beep`, no `frame` and no
`diag` (60_exceptions R171).
The spec's decision D29 (log 14); that `out` shows nothing driven is log 5. -/
def Obligations.TerminalStatesAreAbsorbing : Prop :=
  ∀ (s : State) (k : Nat), s.status ≠ .running → 
    Host.Core.run Sys2Proof.core (k + 1) s = .next { s with out := ⟨false, none, none⟩ }

/-- A stop request wins over everything else of its cycle: the run ends with nothing of the machine changed
but the status, even during a key wait, and nothing is driven (60_exceptions R172). That the cycle is
counted and its inputs are taken from the list is the model's own bookkeeping (logs 1, 3).
When the stop is seen is the spec's decision D24 (log 14). -/
def Obligations.StopEndsRunWithStateUnchanged : Prop :=
  ∀ s : State, s.status = .running → s.nextInput.stop = true →
    step s = .next { s with
      status := .stopped (s.cycle + 1)
      out := ⟨false, none, none⟩
      inputs := s.inputs.tail
      cycle := s.cycle + 1 }

/-- Every cycle that passes the stop check copies `KEYS` into `PREV_KEYS` and then loads `KEYS` from its
`keys` input, whatever else it does (60_exceptions R173).
The spec's decisions D10 and D32 (log 14). -/
def Obligations.EveryCycleLatchesKeys : Prop :=
  ∀ s t : State, s.status = .running → s.nextInput.stop = false → step s = .next t →
    t.prevKeys = s.keys ∧ t.keys = s.nextInput.keys

/-- Faults are precise: when the executing instruction raises a fault, when the fetch is out of bounds and
when the tenth zero word is fetched, the cycle changes nothing but the latch (with the inputs it takes), `ZC`
and the status; no tick and no frame follow (60_exceptions R178). The state after is written out as an update
of `s`; a fetch fault leaves `ZC` too.
The spec's decision D8 (log 14). -/
def Obligations.FaultsArePrecise : Prop :=
  ∀ s : State, s.status = .running → s.nextInput.stop = false → s.wait.active = false →
    (4095 < s.pc.toNat + 1 →
      step s = .next { s with
        prevKeys := s.keys, keys := s.nextInput.keys, rnd := s.nextInput.rnd
        status := .faulted (.memoryBounds s.pc.toNat 2) s.pc none
        out := ⟨false, none, none⟩, inputs := s.inputs.tail, cycle := s.cycle + 1 }) ∧
    (s.pc.toNat + 1 ≤ 4095 → s.fetchWord = 0 → s.zc = 9 →
      step s = .next { s with
        prevKeys := s.keys, keys := s.nextInput.keys, rnd := s.nextInput.rnd, zc := 10
        status := .halted s.pc
        out := ⟨false, none, none⟩, inputs := s.inputs.tail, cycle := s.cycle + 1 }) ∧
    (∀ f, s.pc.toNat + 1 ≤ 4095 → ¬(s.fetchWord = 0 ∧ s.zc = 9) →
      exec (decodeWord s.fetchWord) s.atExecute = .fault f →
      step s = .next { s with
        prevKeys := s.keys, keys := s.nextInput.keys, rnd := s.nextInput.rnd
        zc := if s.fetchWord = 0 then s.zc + 1 else 0
        status := .faulted f s.pc (some s.fetchWord)
        out := ⟨false, none, none⟩, inputs := s.inputs.tail, cycle := s.cycle + 1 })

/-- The halt detector: a fetch of `0x0000` adds 1 to `ZC` and any other fetch clears it; at 10 the run ends
before the word is executed, with `pc` at the word; below 10 the zero word runs as an unrecognized word, a
diagnostic and `pc + 2` (60_exceptions R191).
The spec's decision D12 (log 14). -/
def Obligations.TenZeroWordsHaltTheRun : Prop :=
  ∀ s : State, s.Runs →
    (s.fetchWord ≠ 0 → s.zc ≤ 9 → ∃ t, step s = .next t ∧ t.zc = 0) ∧
    (s.fetchWord = 0 → s.zc = 9 → ∃ t, step s = .next t ∧ t.status = .halted s.pc ∧ t.pc = s.pc ∧
      t.zc = 10 ∧ t.out.diag = none) ∧
    (s.fetchWord = 0 → s.zc < 9 → ∃ t, step s = .next t ∧ t.status = .running ∧ t.pc = s.pc + 2 ∧
      t.zc = s.zc + 1 ∧ t.out.diag = some (0, s.pc))

/-- A tick decrements each timer that is non-zero and beeps exactly when `ST` was 1; a cycle ticks exactly
when it brings the divider to 9, which it then clears, and otherwise adds 1 to the divider and leaves both
timers (60_exceptions R185, R186, R187). Stated of the end of a cycle that began with nothing driven.
Which cycles count is the spec's decision D11 (log 14). -/
def Obligations.DividerTicksEveryNinthCycle : Prop :=
  ∀ s : State, s.out.beep = false →
    (s.div = 8 → s.endCycle.div = 0 ∧ s.endCycle.dt.toNat = s.dt.toNat - 1 ∧
      s.endCycle.st.toNat = s.st.toNat - 1 ∧ (s.endCycle.out.beep = true ↔ s.st = 1)) ∧
    (s.div ≠ 8 → s.endCycle.div = s.div + 1 ∧ s.endCycle.dt = s.dt ∧ s.endCycle.st = s.st ∧
      s.endCycle.out.beep = false)

/-- The timer law: in any sequence of states that starts with a divider of 0, where each state is the end of a
cycle that reached the divider step with the timers and the divider as the state before had them, after `m`
cycles `DT` and `ST` have lost the floor of `m / 9`, stopping at 0, and the cycle that ends in state `m + 1`
beeps exactly when it is the tick that takes `ST` from 1 to 0 (70_reset_and_hazards R216).
R216 is marked derived by the spec. -/
def Obligations.TimersLoseOneEveryNineCycles : Prop :=
  ∀ run : Nat → State, (run 0).div = 0 →
    (∀ j, ∃ u : State, u.dt = (run j).dt ∧ u.st = (run j).st ∧ u.div = (run j).div ∧
      u.out.beep = false ∧ run (j + 1) = u.endCycle) →
    ∀ m : Nat, (run m).dt.toNat = (run 0).dt.toNat - m / 9 ∧
      (run m).st.toNat = (run 0).st.toNat - m / 9 ∧
      ((run (m + 1)).out.beep = true ↔ 0 < (run 0).st.toNat ∧ m + 1 = 9 * (run 0).st.toNat)

/-- A frame is driven exactly at a presentation point with `frameReady` set: it is a copy of `FB`, and
`frameReady` is cleared; the points are every cycle that ticks, or every cycle when `PRESENT_DIVIDER` is 1
(60_exceptions R189).
The spec's decision D19 (log 14). -/
def Obligations.FramePresentedAtPresentationPoint : Prop :=
  ∀ s : State, s.out.frame = none →
    ((s.config.presentDivider = .one ∨ s.div = 8) → s.frameReady = true →
      s.endCycle.out.frame = some s.fb ∧ s.endCycle.frameReady = false) ∧
    (¬((s.config.presentDivider = .one ∨ s.div = 8) ∧ s.frameReady = true) →
      s.endCycle.out.frame = none ∧ s.endCycle.frameReady = s.frameReady) ∧
    s.endCycle.fb = s.fb

/-- `diag` is driven in a cycle that executes an unrecognized word, with its opcode and `pc`, and in no
other (60_exceptions R190, 45_unrecognized R163).
The content of the diagnostic is the spec's decision D26, that SYS words drive one is D28 (log 14), and that
the port stands in State is log 5. -/
def Obligations.DiagOnlyForUnrecognizedWords : Prop :=
  ∀ (s t : State) (opcode pc : Word), step s = .next t →
    (t.out.diag = some (opcode, pc) ↔
      s.Runs ∧ s.atExecute.zc ≠ 10 ∧ opcode = s.fetchWord ∧ pc = s.pc ∧
        ((∃ nnn, decodeWord s.fetchWord = .sys nnn) ∨ (∃ w, decodeWord s.fetchWord = .dw w)))

/-- No step changes a parameter of the machine (00_scope R7; that they stand in State is log 7). -/
def Obligations.ParametersNeverChange : Prop :=
  ∀ s t : State, step s = .next t → t.config = s.config

/-- Of the framebuffer, the stack and memory, a whole cycle changes only what its instruction changes:
without an instruction that writes them they are the same after the step (10_state R31, R35, 20_memory R66). -/
def Obligations.CycleChangesBulkStateOnlyByInstruction : Prop :=
  ∀ s t : State, step s = .next t →
    ((decodeWord s.fetchWord ≠ .cls ∧ ∀ x y n, decodeWord s.fetchWord ≠ .drw x y n) → t.fb = s.fb) ∧
    ((decodeWord s.fetchWord ≠ .ret ∧ ∀ nnn, decodeWord s.fetchWord ≠ .call nnn) →
      t.stack = s.stack ∧ t.sp = s.sp) ∧
    ((∀ x, decodeWord s.fetchWord ≠ .ldB x ∧ decodeWord s.fetchWord ≠ .stRegs x) → t.mem = s.mem)

/-! ## Memory (spec/20_memory.md) -/

/-- A read gives the byte last written there, and a write leaves every other byte (20_memory R56); a write
inside the address space keeps the canonical form. -/
def Obligations.ReadGivesLastByteWritten : Prop :=
  ∀ (m : Memory) (a b : Nat) (v : Byte),
    (m.write a v).read a = v ∧ (b ≠ a → (m.write a v).read b = m.read b) ∧
    (m.wf = true → a ≤ 4095 → (m.write a v).wf = true)

/-- Two memories in canonical form that read alike at every address are the same data (the model's choice
of a canonical form; log 9 says what an unlisted address reads as). -/
def Obligations.EqualMemoriesAreEqualData : Prop :=
  ∀ m m' : Memory, m.wf = true → m'.wf = true → (∀ a, a ≤ 4095 → m.read a = m'.read a) → m = m'

/-- A store is seen by the next fetch: after `Fx55`, a word fetched from bytes it stored is made of the
registers it stored there (20_memory R62, 70_reset_and_hazards R208).
The spec's decision D22 (log 14). -/
def Obligations.StoreIsSeenByNextFetch : Prop :=
  ∀ (x z z' : Nibble) (s t : State), exec (.stRegs x) s = .next t →
    z'.toNat = z.toNat + 1 → z'.toNat ≤ x.toNat → t.pc.toNat = s.i.toNat + z.toNat →
    t.fetchWord = wordOfBytes (s.getV z) (s.getV z')

/-! ## Placing an instruction -/

/-- The next step after a word is placed fetches exactly that word and runs it, whatever the state was: the
step is the placed word's instruction at the state with the inputs taken, the keys latched and the word
counted, then the end of the cycle, or the terminal status of its fault. Memory changes at the word's two
addresses alone, and in a state about to run a word with its inputs listed and fewer than nine zero words
counted nothing but memory changes (the model's own operation, log 11). -/
def Obligations.PlacedWordIsFetchedAndRun : Prop :=
  ∀ (s : State) (w : Word), ∃ p : State, p = s.withFetchWord 16 w.toNat ∧ p.Runs ∧ p.fetchWord = w ∧
    (step p = match exec (decodeWord w) p.atExecute with
      | .next t => .next t.endCycle
      | .fault f => .next { p.atExecute with status := .faulted f p.pc (some w) }
      | .refused r => .refused r) ∧
    (∀ a : Nat, a ≠ p.pc.toNat → a ≠ p.pc.toNat + 1 → p.mem.read a = s.mem.read a) ∧
    (s.Runs → s.inputs ≠ [] → s.zc < 9 → p = { s with mem := p.mem })

/-! ## The end of a cycle (spec/60_exceptions.md) -/

/-- The divider and presentation steps that end a cycle write the timers, the divider, `frameReady` and the
`beep` and `frame` ports, and nothing else (60_exceptions R170 steps 5 and 6, R181).
The order of the cycle is the spec's decisions D11 and D25 (log 14); that the ports stand in State is log 5. -/
def Obligations.CycleEndWritesOnlyTimersAndPorts : Prop :=
  ∀ s : State, s.endCycle = { s with
    dt := s.endCycle.dt, st := s.endCycle.st, div := s.endCycle.div
    frameReady := s.endCycle.frameReady
    out := { s.out with beep := s.endCycle.out.beep, frame := s.endCycle.out.frame } }
end

