-- ==== Sys2Proof/Laws/Draw.lean ====
section
/-!
SUPPORT. The framebuffer: pixels after a toggle, and the drawing loop of `Dxyn` in closed form: every
covered pixel on the screen is toggled once, and the collision is a covered pixel that was lit.
-/
namespace Sys2Proof.Machine

/-! ## Pixels -/

theorem pixel_of_off {fb : Frame} {c r : Nat} (h : onScreen c r = false) : pixel fb c r = false := by
  simp only [onScreen, Bool.and_eq_false_iff, decide_eq_false_iff_not] at h
  simp only [pixel]
  split
  · exact BitVec.getLsbD_of_ge _ _ (by omega)
  · rfl

theorem pixel_toggle {fb : Frame} {c r c' r' : Nat} (h : onScreen c r = true) :
    pixel (togglePixel fb c r) c' r' = (pixel fb c' r' != decide (c' = c ∧ r' = r)) := by
  simp only [onScreen, Bool.and_eq_true, decide_eq_true_eq] at h
  have hr : r < 32 := by omega
  have hc : c < 64 := by omega
  simp only [pixel, togglePixel, hr, dif_pos]
  split
  · rename_i hr'
    by_cases e : r' = r
    · subst e
      simp only [Vector.getElem_set_self, BitVec.getLsbD_xor, BitVec.getLsbD_shiftLeft,
        BitVec.getLsbD_one, and_true]
      by_cases e : c' = c
      · subst e; simp [hc]
      · by_cases h1 : c' < c
        · simp [h1, e]
        · have : c' - c ≠ 0 := by omega
          simp [this, e]
    · have : ¬r = r' := fun h => e h.symm
      simp [this, e]
  · rename_i hr'
    have : ¬r' = r := by omega
    simp [this]

/-- Framebuffers with the same pixels are the same. -/
theorem frame_ext {a b : Frame} (h : ∀ c r, c < 64 → r < 32 → pixel a c r = pixel b c r) : a = b := by
  apply Vector.ext
  intro r hr
  apply BitVec.eq_of_getLsbD_eq
  intro c hc
  simpa [pixel, hr] using h c r hc hr

/-! ## The drawing loop -/

/-- Does a sprite with its top left corner at (cx, cy) have a set bit at (c, r)? (40_display R92) -/
def covered (rows : List Byte) (cx cy c r : Nat) : Bool :=
  decide (cx ≤ c) && decide (c < cx + 8) && decide (cy ≤ r) &&
    match rows[r - cy]? with
    | some b => spriteBit b (c - cx)
    | none => false

/-- One plotted bit. -/
theorem pixel_plot (c r c' r' : Nat) (k : Canvas) :
    pixel (plot c r k).1 c' r' =
      (pixel k.1 c' r' != (onScreen c r && decide (c' = c ∧ r' = r))) := by
  simp only [plot]
  split
  · rename_i h; simp [pixel_toggle h, h]
  · simp_all

theorem hit_plot (c r : Nat) (k : Canvas) :
    (plot c r k).2 = (k.2 || (onScreen c r && pixel k.1 c r)) := by
  simp only [plot]
  split <;> simp_all

/-- Some columns of a sprite row. -/
theorem pixel_drawColumns {cx r : Nat} {b : Byte} {cs : List Nat} (hcs : cs.Nodup) (k : Canvas)
    (c' r' : Nat) :
    pixel (drawColumns cx r b cs k).1 c' r' =
      (pixel k.1 c' r' != (onScreen c' r' && decide (r' = r) && decide (cx ≤ c') &&
        cs.contains (c' - cx) && spriteBit b (c' - cx))) := by
  induction cs generalizing k with
  | nil => simp [drawColumns]
  | cons c cs ih =>
    rw [List.nodup_cons] at hcs
    simp only [drawColumns]
    rw [ih hcs.2]
    by_cases e : c' = cx + c ∧ r' = r
    · obtain ⟨rfl, rfl⟩ := e
      cases hb : spriteBit b c <;> simp [hcs.1, hb, pixel_plot]
    · have e2 : (decide (r' = r) && decide (cx ≤ c') && (c' - cx == c)) = false := by
        simp only [Bool.and_eq_false_iff, decide_eq_false_iff_not, beq_eq_false_iff_ne]
        omega
      have e1 : pixel (if spriteBit b c = true then plot (cx + c) r k else k).1 c' r' = pixel k.1 c' r' := by
        split
        · simp [pixel_plot, e]
        · rfl
      rw [e1]
      congr 1
      rw [List.contains_cons]
      revert e2
      cases decide (r' = r) <;> cases decide (cx ≤ c') <;> cases (c' - cx == c) <;> simp

theorem hit_drawColumns {cx r : Nat} {b : Byte} {cs : List Nat} (hcs : cs.Nodup) (k : Canvas) :
    (drawColumns cx r b cs k).2 = true ↔
      k.2 = true ∨ ∃ c ∈ cs, spriteBit b c = true ∧ onScreen (cx + c) r = true ∧
        pixel k.1 (cx + c) r = true := by
  induction cs generalizing k with
  | nil => simp [drawColumns]
  | cons c cs ih =>
    rw [List.nodup_cons] at hcs
    simp only [drawColumns]
    rw [ih hcs.2]
    have hsame : ∀ d ∈ cs, pixel (if spriteBit b c = true then plot (cx + c) r k else k).1 (cx + d) r =
        pixel k.1 (cx + d) r := by
      intro d hd
      have : d ≠ c := fun e => hcs.1 (e ▸ hd)
      split
      · simp [pixel_plot, this]
      · rfl
    constructor
    · rintro (h | ⟨d, hd, h1, h2, h3⟩)
      · split at h
        · rename_i hb
          rw [hit_plot] at h
          simp only [Bool.or_eq_true, Bool.and_eq_true] at h
          rcases h with h | h
          · exact .inl h
          · exact .inr ⟨c, by simp, hb, h.1, h.2⟩
        · exact .inl h
      · rw [hsame d hd] at h3
        exact .inr ⟨d, by simp [hd], h1, h2, h3⟩
    · rintro (h | ⟨d, hd, h1, h2, h3⟩)
      · refine .inl ?_
        split
        · simp [hit_plot, h]
        · exact h
      · rcases List.mem_cons.mp hd with rfl | hd
        · refine .inl ?_
          simp [h1, hit_plot, h2, h3]
        · exact .inr ⟨d, hd, h1, h2, by rw [hsame d hd]; exact h3⟩

theorem spriteColumns_nodup : spriteColumns.Nodup := by decide

theorem mem_spriteColumns {d : Nat} : d ∈ spriteColumns ↔ d < 8 := by
  simp [spriteColumns]; omega

/-- Every pixel after a sprite is drawn (40_display R91, R93): covered pixels on the screen are
toggled, all others stay. -/
theorem pixel_drawRows (rows : List Byte) (cx cy c r : Nat) (k : Canvas) :
    pixel (drawRows cx cy rows k).1 c r =
      (pixel k.1 c r != (onScreen c r && covered rows cx cy c r)) := by
  induction rows generalizing cy k with
  | nil => simp [drawRows, covered]
  | cons b rows ih =>
    simp only [drawRows]
    rw [ih, pixel_drawColumns spriteColumns_nodup]
    have hm : spriteColumns.contains (c - cx) = decide (c - cx < 8) := by
      rw [List.contains_eq_mem, decide_eq_decide, mem_spriteColumns]
    rw [hm]
    by_cases e : r = cy
    · subst e
      by_cases h : cx ≤ c
      · have : c - cx < 8 ↔ c < cx + 8 := by omega
        have : ¬r + 1 ≤ r := by omega
        simp [covered, *, Bool.and_assoc]
      · simp [covered, h]
    · by_cases h : cy + 1 ≤ r
      · have h1 : r - cy = (r - (cy + 1)) + 1 := by omega
        have h2 : cy ≤ r := by omega
        simp [covered, e, h, h1, h2]
      · have h2 : ¬cy ≤ r := by omega
        simp [covered, e, h, h2]

/-- The collision (40_display R94): a covered pixel on the screen that was lit. -/
theorem hit_drawRows (rows : List Byte) (cx cy : Nat) (k : Canvas) :
    (drawRows cx cy rows k).2 = true ↔
      k.2 = true ∨ ∃ c r, onScreen c r = true ∧ covered rows cx cy c r = true ∧
        pixel k.1 c r = true := by
  induction rows generalizing cy k with
  | nil => simp [drawRows, covered]
  | cons b rows ih =>
    simp only [drawRows]
    rw [ih, hit_drawColumns spriteColumns_nodup]
    have hother : ∀ c r, r ≠ cy →
        pixel (drawColumns cx cy b spriteColumns k).1 c r = pixel k.1 c r := by
      intro c r hr
      rw [pixel_drawColumns spriteColumns_nodup]
      simp [hr]
    constructor
    · rintro ((h | ⟨d, hd, h1, h2, h3⟩) | ⟨c, r, h1, h2, h3⟩)
      · exact .inl h
      · refine .inr ⟨cx + d, cy, h2, ?_, h3⟩
        rw [mem_spriteColumns] at hd
        simp [covered, hd, h1]
      · have hr : cy + 1 ≤ r := by
          simp only [covered, Bool.and_eq_true, decide_eq_true_eq] at h2
          exact h2.1.2
        rw [hother c r (by omega)] at h3
        refine .inr ⟨c, r, h1, ?_, h3⟩
        have e1 : r - cy = (r - (cy + 1)) + 1 := by omega
        have e2 : cy ≤ r := by omega
        simp only [covered, hr, decide_true, Bool.and_true] at h2
        simpa [covered, e1, e2] using h2
    · rintro (h | ⟨c, r, h1, h2, h3⟩)
      · exact .inl (.inl h)
      · have h2' := h2
        simp only [covered, Bool.and_eq_true, decide_eq_true_eq] at h2
        obtain ⟨⟨⟨hcx, hc8⟩, hcy⟩, hbit⟩ := h2
        by_cases e : r = cy
        · subst e
          simp only [Nat.sub_self, List.getElem?_cons_zero] at hbit
          have : cx + (c - cx) = c := by omega
          refine .inl (.inr ⟨c - cx, ?_, hbit, ?_, ?_⟩)
          · rw [mem_spriteColumns]; omega
          · rw [this]; exact h1
          · rw [this]; exact h3
        · refine .inr ⟨c, r, h1, ?_, ?_⟩
          · have e1 : r - cy = (r - (cy + 1)) + 1 := by omega
            have e2 : cy + 1 ≤ r := by omega
            rw [e1, List.getElem?_cons_succ] at hbit
            simp [covered, hcx, hc8, e2, hbit]
          · rw [hother c r e]; exact h3

end Sys2Proof.Machine
end

