-- ==== Sys2Proof/Laws/Encoding.lean ====
section
/-!
SUPPORT. Words and their fields, and the one fact about the decoder that its callers need: a word that
an instruction row matches decodes to what that row builds.
-/
namespace Sys2Proof

/-! ## Bits of the formats -/

theorem getLsbD_wordA (f : Nibble) (nnn : Addr12) (k : Nat) :
    (wordA f nnn).getLsbD k = if k < 12 then nnn.getLsbD k else f.getLsbD (k - 12) :=
  BitVec.getLsbD_append (x := f) (y := nnn)

theorem getLsbD_wordXK (f x : Nibble) (kk : Byte) (k : Nat) :
    (wordXK f x kk).getLsbD k =
      if k < 8 then kk.getLsbD k else if k < 12 then x.getLsbD (k - 8) else f.getLsbD (k - 12) := by
  have h : (BitVec.getLsbD (x ++ kk : BitVec (4 + 8)) k) = _ := BitVec.getLsbD_append
  rw [wordXK, getLsbD_wordA, h]
  repeat' split
  all_goals first | rfl | omega

theorem getLsbD_wordXYN (f x y n : Nibble) (k : Nat) :
    (wordXYN f x y n).getLsbD k =
      if k < 4 then n.getLsbD k else if k < 8 then y.getLsbD (k - 4)
      else if k < 12 then x.getLsbD (k - 8) else f.getLsbD (k - 12) := by
  have h : (BitVec.getLsbD (y ++ n : BitVec (4 + 4)) k) = _ := BitVec.getLsbD_append
  rw [wordXYN, getLsbD_wordXK, h]
  repeat' split
  all_goals first | rfl | omega

theorem eq_of_sixteen_bits {a b : Word}
    (h : ∀ k ∈ [0, 1, 2, 3, 4, 5, 6, 7, 8, 9, 10, 11, 12, 13, 14, 15], a.getLsbD k = b.getLsbD k) :
    a = b :=
  BitVec.eq_of_getLsbD_eq fun i hi => h i (by simp; omega)

/-! ## Masks -/

theorem wordA_mask (f : Nibble) (nnn : Addr12) : wordA f nnn &&& 0xF000 = wordA f 0 :=
  eq_of_sixteen_bits (by simp [-BitVec.getLsbD_eq_getElem, BitVec.getLsbD_and, getLsbD_wordA])

theorem wordXK_mask (f x : Nibble) (kk : Byte) : wordXK f x kk &&& 0xF0FF = wordXK f 0 kk :=
  eq_of_sixteen_bits (by simp [-BitVec.getLsbD_eq_getElem, BitVec.getLsbD_and, getLsbD_wordXK])

theorem wordXYN_mask (f x y n : Nibble) : wordXYN f x y n &&& 0xF00F = wordXYN f 0 0 n :=
  eq_of_sixteen_bits (by simp [-BitVec.getLsbD_eq_getElem, BitVec.getLsbD_and, getLsbD_wordXYN])

/-- The family nibble of a word in format `XK`. -/
theorem wordXK_family (f x : Nibble) (kk : Byte) : wordXK f x kk &&& 0xF000 = wordA f 0 :=
  wordA_mask f _

/-- The family nibble of a word in format `XYN`. -/
theorem wordXYN_family (f x y n : Nibble) : wordXYN f x y n &&& 0xF000 = wordA f 0 :=
  wordA_mask f _

/-! ## Fields of a word that was built from them -/

/-- `op[15:12]`. -/
def fieldFamily (op : Word) : Nibble := op.extractLsb' 12 4

@[simp] theorem fieldNNN_wordA (f : Nibble) (nnn : Addr12) : fieldNNN (wordA f nnn) = nnn := by
  ext k hk
  simp [-BitVec.getLsbD_eq_getElem, ← BitVec.getLsbD_eq_getElem, fieldNNN, getLsbD_wordA, hk]

@[simp] theorem fieldFamily_wordA (f : Nibble) (nnn : Addr12) : fieldFamily (wordA f nnn) = f := by
  ext k hk
  simp [-BitVec.getLsbD_eq_getElem, ← BitVec.getLsbD_eq_getElem, fieldFamily, getLsbD_wordA, hk]

@[simp] theorem fieldFamily_wordXK (f x : Nibble) (kk : Byte) : fieldFamily (wordXK f x kk) = f :=
  fieldFamily_wordA f _

@[simp] theorem fieldFamily_wordXYN (f x y n : Nibble) : fieldFamily (wordXYN f x y n) = f :=
  fieldFamily_wordA f _

@[simp] theorem fieldKK_wordXK (f x : Nibble) (kk : Byte) : fieldKK (wordXK f x kk) = kk := by
  ext k hk
  simp [-BitVec.getLsbD_eq_getElem, ← BitVec.getLsbD_eq_getElem, fieldKK, getLsbD_wordXK, hk]

@[simp] theorem fieldX_wordXK (f x : Nibble) (kk : Byte) : fieldX (wordXK f x kk) = x := by
  ext k hk
  have : 8 + k < 12 := by omega
  simp [-BitVec.getLsbD_eq_getElem, ← BitVec.getLsbD_eq_getElem, fieldX, getLsbD_wordXK, *]

@[simp] theorem fieldX_wordXYN (f x y n : Nibble) : fieldX (wordXYN f x y n) = x := fieldX_wordXK f x _

@[simp] theorem fieldY_wordXYN (f x y n : Nibble) : fieldY (wordXYN f x y n) = y := by
  ext k hk
  have : 4 + k < 8 := by omega
  simp [-BitVec.getLsbD_eq_getElem, ← BitVec.getLsbD_eq_getElem, fieldY, getLsbD_wordXYN, *]

@[simp] theorem fieldN_wordXYN (f x y n : Nibble) : fieldN (wordXYN f x y n) = n := by
  ext k hk
  simp [-BitVec.getLsbD_eq_getElem, ← BitVec.getLsbD_eq_getElem, fieldN, getLsbD_wordXYN, *]

/-! ## Every word is built from its fields -/

theorem wordA_fields (w : Word) : wordA (fieldFamily w) (fieldNNN w) = w :=
  eq_of_sixteen_bits (by
    simp [-BitVec.getLsbD_eq_getElem, getLsbD_wordA, fieldFamily, fieldNNN])

theorem wordXK_fields (w : Word) : wordXK (fieldFamily w) (fieldX w) (fieldKK w) = w :=
  eq_of_sixteen_bits (by
    simp [-BitVec.getLsbD_eq_getElem, getLsbD_wordXK, fieldFamily, fieldX, fieldKK])

theorem wordXYN_fields (w : Word) :
    wordXYN (fieldFamily w) (fieldX w) (fieldY w) (fieldN w) = w :=
  eq_of_sixteen_bits (by
    simp [-BitVec.getLsbD_eq_getElem, getLsbD_wordXYN, fieldFamily, fieldX, fieldY, fieldN])

/-! ## What a match says of the fields -/

theorem mask_F000_iff (w : Word) (f : Nibble) : w &&& 0xF000 = wordA f 0 ↔ fieldFamily w = f := by
  constructor
  · intro h
    rw [← wordA_fields w, wordA_mask] at h
    simpa using congrArg fieldFamily h
  · rintro rfl
    conv => lhs; rw [← wordA_fields w]
    exact wordA_mask _ _

theorem mask_F0FF_iff (w : Word) (f : Nibble) (k : Byte) :
    w &&& 0xF0FF = wordXK f 0 k ↔ fieldFamily w = f ∧ fieldKK w = k := by
  constructor
  · intro h
    rw [← wordXK_fields w, wordXK_mask] at h
    exact ⟨by simpa using congrArg fieldFamily h, by simpa using congrArg fieldKK h⟩
  · rintro ⟨rfl, rfl⟩
    conv => lhs; rw [← wordXK_fields w]
    exact wordXK_mask _ _ _

theorem mask_F00F_iff (w : Word) (f n : Nibble) :
    w &&& 0xF00F = wordXYN f 0 0 n ↔ fieldFamily w = f ∧ fieldN w = n := by
  constructor
  · intro h
    rw [← wordXYN_fields w, wordXYN_mask] at h
    exact ⟨by simpa using congrArg fieldFamily h, by simpa using congrArg fieldN h⟩
  · rintro ⟨rfl, rfl⟩
    conv => lhs; rw [← wordXYN_fields w]
    exact wordXYN_mask _ _ _ _

/-- The family of a word is that of any word it equals under the mask of a family. -/
theorem family_of_masked {w p : Word} (h : w &&& 0xF000 = p) : fieldFamily w = fieldFamily p := by
  rw [← h, ← wordA_fields w, wordA_mask]; simp

theorem fields_of_masked_sub {w p : Word} (h : w &&& 0xF0FF = p) :
    fieldFamily w = fieldFamily p ∧ fieldKK w = fieldKK p := by
  rw [← h, ← wordXK_fields w, wordXK_mask]; simp

theorem fields_of_masked_low {w p : Word} (h : w &&& 0xF00F = p) :
    fieldFamily w = fieldFamily p ∧ fieldN w = fieldN p := by
  rw [← h, ← wordXYN_fields w, wordXYN_mask]; simp

/-! ## The table -/

/-- Two rows that no word matches both of, as a check on their bits: some bit both masks fix differs. -/
def Row.disjoint (a b : Row) : Bool := (a.pattern ^^^ b.pattern) &&& (a.mask &&& b.mask) != 0

theorem not_both_match {a b : Row} (h : a.disjoint b = true) {w : Word} (ha : a.matches w = true) :
    b.matches w = false := by
  simp only [Row.matches, beq_iff_eq] at ha
  refine Bool.eq_false_iff.mpr fun hb => ?_
  simp only [Row.matches, beq_iff_eq] at hb
  have : (a.pattern ^^^ b.pattern) &&& (a.mask &&& b.mask) = 0 := by
    rw [← ha, ← hb]
    ext i hi
    simp only [BitVec.getElem_and, BitVec.getElem_xor]
    cases w[i] <;> cases a.mask[i] <;> cases b.mask[i] <;> simp
  simp [Row.disjoint, this] at h

/-- The 34 instruction rows are pairwise disjoint (30_encoding R76), checked bit by bit. -/
theorem instructionRows_disjoint :
    instructionRows.Pairwise fun a b => a.disjoint b = true := by decide

theorem find_of_disjoint {w : Word} {r : Row} {l rest : List Row}
    (hl : l.Pairwise fun a b => a.disjoint b = true) (hr : r ∈ l) (hw : r.matches w = true) :
    (l ++ rest).find? (fun r => r.matches w) = some r := by
  induction l with
  | nil => cases hr
  | cons a l ih =>
    rw [List.pairwise_cons] at hl
    rcases List.mem_cons.mp hr with rfl | hmem
    · simp [hw]
    · have : a.matches w = false := by
        refine Bool.eq_false_iff.mpr fun ha => ?_
        rw [not_both_match (hl.1 r hmem) ha] at hw
        cases hw
      simp [this, ih hl.2 hmem]

/-- A word that an instruction row matches decodes to what the row builds. -/
theorem decodeWord_of_mem {w : Word} {r : Row} (hr : r ∈ instructionRows) (hw : r.matches w = true) :
    decodeWord w = r.build w := by
  have := find_of_disjoint (rest := [sysRow, fallbackRow]) instructionRows_disjoint hr hw
  simp only [decodeWord, opcodeRows]
  rw [this]

/-- A word that no instruction row matches is `sys` in the `0nnn` space and `dw` elsewhere. -/
theorem decodeWord_of_no_row {w : Word} (h : ∀ r ∈ instructionRows, r.matches w = false) :
    decodeWord w = if w &&& 0xF000 = 0 then .sys (fieldNNN w) else .dw w := by
  have hnone : instructionRows.find? (fun r => r.matches w) = none :=
    List.find?_eq_none.mpr fun r hr => by simp [h r hr]
  simp only [decodeWord, opcodeRows, List.find?_append, hnone, Option.none_or]
  by_cases hw : w &&& 0xF000#16 = 0#16 <;>
    simp [hw, Row.matches, sysRow, fallbackRow]

/-- The list of 30_encoding R78 in terms of the fields. -/
theorem isUnrecognized_fields (w : Word) : isUnrecognized w =
    ((fieldFamily w == 0x5 && fieldN w != 0)
      || (fieldFamily w == 0x8 && (fieldN w == 0x8 || fieldN w == 0x9 || fieldN w == 0xA
            || fieldN w == 0xB || fieldN w == 0xC || fieldN w == 0xD || fieldN w == 0xF))
      || (fieldFamily w == 0x9 && fieldN w != 0)
      || (fieldFamily w == 0xE && fieldKK w != 0x9E && fieldKK w != 0xA1)
      || (fieldFamily w == 0xF && fieldKK w != 0x07 && fieldKK w != 0x0A && fieldKK w != 0x15
            && fieldKK w != 0x18 && fieldKK w != 0x1E && fieldKK w != 0x29 && fieldKK w != 0x33
            && fieldKK w != 0x55 && fieldKK w != 0x65)) := rfl

/-- What a word has that some instruction row matches: it is `00E0` or `00EE`, or it lies outside the `0nnn`
space and is none of the unrecognized words (30_encoding R76, R78). -/
theorem row_fields {w : Word} {r : Row} (hr : r ∈ instructionRows) (h : r.matches w = true) :
    w = 0x00E0 ∨ w = 0x00EE ∨ (fieldFamily w ≠ 0 ∧ isUnrecognized w = false) := by
  rw [isUnrecognized_fields]
  simp only [instructionRows, rowsPlain, rowsAlu, rowsUpper, rowsSub, List.cons_append,
    List.nil_append, List.mem_cons, List.not_mem_nil, or_false] at hr
  rcases hr with rfl | rfl | rfl | rfl | rfl | rfl | rfl | rfl | rfl | rfl | rfl | rfl | rfl | rfl |
    rfl | rfl | rfl | rfl | rfl | rfl | rfl | rfl | rfl | rfl | rfl | rfl | rfl | rfl | rfl | rfl |
    rfl | rfl | rfl | rfl
  · left
    simp only [Row.matches, beq_iff_eq] at h
    exact (BitVec.and_allOnes (x := w)).symm.trans h
  · right; left
    simp only [Row.matches, beq_iff_eq] at h
    exact (BitVec.and_allOnes (x := w)).symm.trans h
  all_goals right; right
  all_goals simp only [Row.matches, beq_iff_eq] at h
  all_goals first
    | (have e := family_of_masked h
       revert e; generalize fieldFamily w = f; rintro rfl; simp [fieldFamily]; done)
    | (have e := fields_of_masked_sub h
       revert e; generalize fieldFamily w = f; generalize fieldKK w = k
       rintro ⟨rfl, rfl⟩; simp [fieldFamily, fieldKK]; done)
    | (have e := fields_of_masked_low h
       revert e; generalize fieldFamily w = f; generalize fieldN w = k
       rintro ⟨rfl, rfl⟩; simp [fieldFamily, fieldN]; done)

/-- Two bytes decode to the instruction of their word, and the rest stays. -/
@[simp] theorem decode_two (hi lo : Byte) (rest : List Byte) :
    decode (hi :: lo :: rest) = .ok (decodeWord (wordOfBytes hi lo), rest) := rfl

/-- The bytes of a word, put together again. -/
@[simp] theorem wordOfBytes_bytesOfWord (w : Word) :
    wordOfBytes (w.extractLsb' 8 8) (w.extractLsb' 0 8) = w := by
  have h (k : Nat) : (wordOfBytes (w.extractLsb' 8 8) (w.extractLsb' 0 8)).getLsbD k = _ :=
    BitVec.getLsbD_append (x := w.extractLsb' 8 8) (y := w.extractLsb' 0 8)
  exact eq_of_sixteen_bits (by simp [-BitVec.getLsbD_eq_getElem, h])

end Sys2Proof
end

