-- ==== Sys2Proof/Laws/Memory.lean ====
section
/-!
SUPPORT. Memory: what a read gives after a write, and that every operation keeps the canonical form.
-/
namespace Sys2Proof.Machine.Memory

/-! ## Reads after writes -/

theorem read_insert (m : Memory) (a b : Nat) (v : Byte) :
    (insert a v m).read b = if a = b then v else m.read b := by
  induction m with
  | nil => by_cases h : a = b <;> simp [insert, read, h]
  | cons c m ih =>
    obtain ⟨c, w⟩ := c
    simp only [insert]
    split
    · by_cases h : a = b <;> simp [read, h]
    · split
      · subst_vars; by_cases h : c = b <;> simp [read, h]
      · by_cases h : c = b
        · have : a ≠ b := by omega
          simp [read, h, this]
        · simp [read, h, ih]

theorem read_erase (m : Memory) (a b : Nat) :
    (erase a m).read b = if a = b then unlistedByte b else m.read b := by
  induction m with
  | nil => simp [erase, read]
  | cons c m ih =>
    obtain ⟨c, w⟩ := c
    simp only [erase]
    split
    · subst_vars
      by_cases h : c = b
      · subst h; simpa using ih
      · simp [read, h, ih]
    · by_cases h : c = b
      · have : a ≠ b := by omega
        simp [read, h, this]
      · simp [read, h, ih]

/-- A read after a write gives the byte written there, and elsewhere what it gave before (20_memory R56). -/
theorem read_write (m : Memory) (a b : Nat) (v : Byte) :
    (m.write a v).read b = if a = b then v else m.read b := by
  simp only [write]
  split
  · rw [read_erase]; split
    · subst_vars; rfl
    · rfl
  · exact read_insert m a b v

/-- A read after a block of bytes was written. -/
theorem read_writeBytes (vs : List Byte) (m : Memory) (a b : Nat) :
    (m.writeBytes a vs).read b =
      if a ≤ b ∧ b < a + vs.length then vs.getD (b - a) 0 else m.read b := by
  induction vs generalizing m a with
  | nil => simp [writeBytes] <;> omega
  | cons v vs ih =>
    simp only [writeBytes, ih, read_write, List.length_cons]
    by_cases h1 : a + 1 ≤ b ∧ b < a + 1 + vs.length
    · have h2 : a ≤ b ∧ b < a + (vs.length + 1) := by omega
      obtain ⟨k, rfl⟩ : ∃ k, b = a + 1 + k := ⟨b - (a + 1), by omega⟩
      rw [if_pos h1, if_pos h2]
      have e1 : a + 1 + k - (a + 1) = k := by omega
      have e2 : a + 1 + k - a = k + 1 := by omega
      simp [e1, e2]
    · rw [if_neg h1]
      by_cases h3 : a = b
      · subst h3; simp
      · have h2 : ¬(a ≤ b ∧ b < a + (vs.length + 1)) := by omega
        simp [h3, h2]

/-- A read outside the written block. -/
theorem read_writeBytes_outside {vs : List Byte} {m : Memory} {a b : Nat}
    (h : b < a ∨ a + vs.length ≤ b) : (m.writeBytes a vs).read b = m.read b := by
  rw [read_writeBytes, if_neg (by omega)]

/-- A read inside the written block. -/
theorem read_writeBytes_inside {vs : List Byte} {m : Memory} {a k : Nat} (h : k < vs.length) :
    (m.writeBytes a vs).read (a + k) = vs[k] := by
  rw [read_writeBytes, if_pos (by omega)]
  have : a + k - a = k := by omega
  simp [this, h]

@[simp] theorem length_readBytes (n : Nat) (m : Memory) (a : Nat) : (m.readBytes a n).length = n := by
  induction n generalizing a with
  | zero => rfl
  | succ n ih => simp [readBytes, ih]

theorem getElem_readBytes (n : Nat) (m : Memory) (a k : Nat) (h : k < (m.readBytes a n).length) :
    (m.readBytes a n)[k] = m.read (a + k) := by
  induction n generalizing a k with
  | zero => simp [readBytes] at h
  | succ n ih =>
    cases k with
    | zero => rfl
    | succ k =>
      simp only [readBytes, List.getElem_cons_succ]
      rw [ih]
      congr 1
      omega

/-! ## The canonical form -/

theorem wfFrom_mono {m : Memory} {lo lo' : Nat} (h : lo' ≤ lo) (hw : wfFrom lo m = true) :
    wfFrom lo' m = true := by
  cases m with
  | nil => rfl
  | cons c m =>
    obtain ⟨c, w⟩ := c
    simp only [wfFrom, Bool.and_eq_true, decide_eq_true_eq] at hw ⊢
    exact ⟨⟨⟨by omega, hw.1.1.2⟩, hw.1.2⟩, hw.2⟩

theorem wfFrom_insert {m : Memory} {lo a : Nat} {v : Byte} (hw : wfFrom lo m = true) (ha : lo ≤ a)
    (hb : a ≤ lastAddress) (hv : v ≠ unlistedByte a) : wfFrom lo (insert a v m) = true := by
  induction m generalizing lo with
  | nil => simp [insert, wfFrom, ha, hb, hv]
  | cons c m ih =>
    obtain ⟨c, w⟩ := c
    simp only [wfFrom, Bool.and_eq_true, decide_eq_true_eq, bne_iff_ne] at hw
    simp only [insert]
    split
    · simp only [wfFrom, Bool.and_eq_true, decide_eq_true_eq, bne_iff_ne]
      exact ⟨⟨⟨ha, hb⟩, hv⟩, ⟨⟨by omega, hw.1.1.2⟩, hw.1.2⟩, hw.2⟩
    · split
      · subst_vars
        simp only [wfFrom, Bool.and_eq_true, decide_eq_true_eq, bne_iff_ne]
        exact ⟨⟨⟨ha, hb⟩, hv⟩, hw.2⟩
      · simp only [wfFrom, Bool.and_eq_true, decide_eq_true_eq, bne_iff_ne]
        exact ⟨hw.1, ih hw.2 (by omega)⟩

theorem wfFrom_erase {m : Memory} {lo a : Nat} (hw : wfFrom lo m = true) :
    wfFrom lo (erase a m) = true := by
  induction m generalizing lo with
  | nil => rfl
  | cons c m ih =>
    obtain ⟨c, w⟩ := c
    simp only [wfFrom, Bool.and_eq_true, decide_eq_true_eq, bne_iff_ne] at hw
    simp only [erase]
    split
    · exact wfFrom_mono (by omega) (ih hw.2)
    · simp only [wfFrom, Bool.and_eq_true, decide_eq_true_eq, bne_iff_ne]
      exact ⟨hw.1, ih hw.2⟩

/-- A write inside the address space keeps the canonical form. -/
theorem wf_write {m : Memory} {a : Nat} {v : Byte} (hw : m.wf = true) (ha : a ≤ lastAddress) :
    (m.write a v).wf = true := by
  simp only [write, wf] at *
  split
  · exact wfFrom_erase hw
  · exact wfFrom_insert hw (by omega) ha ‹_›

/-- A block written inside the address space keeps the canonical form. -/
theorem wf_writeBytes {vs : List Byte} {m : Memory} {a : Nat} (hw : m.wf = true)
    (ha : a + vs.length ≤ lastAddress + 1) : (m.writeBytes a vs).wf = true := by
  induction vs generalizing m a with
  | nil => exact hw
  | cons v vs ih =>
    simp only [List.length_cons] at ha
    exact ih (wf_write hw (by omega)) (by omega)

/-- Below its first address a canonical memory reads as unlisted. -/
theorem read_below {m : Memory} {lo a : Nat} (hw : wfFrom lo m = true) (ha : a < lo) :
    m.read a = unlistedByte a := by
  induction m generalizing lo with
  | nil => rfl
  | cons c m ih =>
    obtain ⟨c, w⟩ := c
    simp only [wfFrom, Bool.and_eq_true, decide_eq_true_eq, bne_iff_ne] at hw
    have : c ≠ a := by omega
    simp [read, this, ih hw.2 (by omega)]

end Sys2Proof.Machine.Memory
end

