-- ==== Sys2Proof/Laws/State.lean ====
section
/-!
SUPPORT. One lemma per field and per update of the state, so that no proof unfolds a record update.
Each is true by `rfl`; it is written `by rfl` so that `simp` rewrites with it as an equation and keeps the
decidability terms of an `if` on a field in step.
-/
namespace Sys2Proof.Machine.State

variable (s : State)

/-! ### setV -/

@[simp] theorem setV_mem (x : Nibble) (b : Byte) : (s.setV x b).mem = s.mem := by rfl
@[simp] theorem setV_v (x : Nibble) (b : Byte) : (s.setV x b).v = s.v.set x.toNat b x.isLt := by rfl
@[simp] theorem setV_i (x : Nibble) (b : Byte) : (s.setV x b).i = s.i := by rfl
@[simp] theorem setV_pc (x : Nibble) (b : Byte) : (s.setV x b).pc = s.pc := by rfl
@[simp] theorem setV_stack (x : Nibble) (b : Byte) : (s.setV x b).stack = s.stack := by rfl
@[simp] theorem setV_sp (x : Nibble) (b : Byte) : (s.setV x b).sp = s.sp := by rfl
@[simp] theorem setV_dt (x : Nibble) (b : Byte) : (s.setV x b).dt = s.dt := by rfl
@[simp] theorem setV_st (x : Nibble) (b : Byte) : (s.setV x b).st = s.st := by rfl
@[simp] theorem setV_fb (x : Nibble) (b : Byte) : (s.setV x b).fb = s.fb := by rfl
@[simp] theorem setV_keys (x : Nibble) (b : Byte) : (s.setV x b).keys = s.keys := by rfl
@[simp] theorem setV_prevKeys (x : Nibble) (b : Byte) : (s.setV x b).prevKeys = s.prevKeys := by rfl
@[simp] theorem setV_frameReady (x : Nibble) (b : Byte) : (s.setV x b).frameReady = s.frameReady := by rfl
@[simp] theorem setV_zc (x : Nibble) (b : Byte) : (s.setV x b).zc = s.zc := by rfl
@[simp] theorem setV_div (x : Nibble) (b : Byte) : (s.setV x b).div = s.div := by rfl
@[simp] theorem setV_wait (x : Nibble) (b : Byte) : (s.setV x b).wait = s.wait := by rfl
@[simp] theorem setV_status (x : Nibble) (b : Byte) : (s.setV x b).status = s.status := by rfl
@[simp] theorem setV_config (x : Nibble) (b : Byte) : (s.setV x b).config = s.config := by rfl
@[simp] theorem setV_out (x : Nibble) (b : Byte) : (s.setV x b).out = s.out := by rfl
@[simp] theorem setV_rnd (x : Nibble) (b : Byte) : (s.setV x b).rnd = s.rnd := by rfl
@[simp] theorem setV_inputs (x : Nibble) (b : Byte) : (s.setV x b).inputs = s.inputs := by rfl
@[simp] theorem setV_cycle (x : Nibble) (b : Byte) : (s.setV x b).cycle = s.cycle := by rfl

/-! ### setPc -/

@[simp] theorem setPc_mem (w : Word) : (s.setPc w).mem = s.mem := by rfl
@[simp] theorem setPc_v (w : Word) : (s.setPc w).v = s.v := by rfl
@[simp] theorem setPc_i (w : Word) : (s.setPc w).i = s.i := by rfl
@[simp] theorem setPc_pc (w : Word) : (s.setPc w).pc = w := by rfl
@[simp] theorem setPc_stack (w : Word) : (s.setPc w).stack = s.stack := by rfl
@[simp] theorem setPc_sp (w : Word) : (s.setPc w).sp = s.sp := by rfl
@[simp] theorem setPc_dt (w : Word) : (s.setPc w).dt = s.dt := by rfl
@[simp] theorem setPc_st (w : Word) : (s.setPc w).st = s.st := by rfl
@[simp] theorem setPc_fb (w : Word) : (s.setPc w).fb = s.fb := by rfl
@[simp] theorem setPc_keys (w : Word) : (s.setPc w).keys = s.keys := by rfl
@[simp] theorem setPc_prevKeys (w : Word) : (s.setPc w).prevKeys = s.prevKeys := by rfl
@[simp] theorem setPc_frameReady (w : Word) : (s.setPc w).frameReady = s.frameReady := by rfl
@[simp] theorem setPc_zc (w : Word) : (s.setPc w).zc = s.zc := by rfl
@[simp] theorem setPc_div (w : Word) : (s.setPc w).div = s.div := by rfl
@[simp] theorem setPc_wait (w : Word) : (s.setPc w).wait = s.wait := by rfl
@[simp] theorem setPc_status (w : Word) : (s.setPc w).status = s.status := by rfl
@[simp] theorem setPc_config (w : Word) : (s.setPc w).config = s.config := by rfl
@[simp] theorem setPc_out (w : Word) : (s.setPc w).out = s.out := by rfl
@[simp] theorem setPc_rnd (w : Word) : (s.setPc w).rnd = s.rnd := by rfl
@[simp] theorem setPc_inputs (w : Word) : (s.setPc w).inputs = s.inputs := by rfl
@[simp] theorem setPc_cycle (w : Word) : (s.setPc w).cycle = s.cycle := by rfl

/-! ### advance -/

@[simp] theorem advance_mem : s.advance.mem = s.mem := by rfl
@[simp] theorem advance_v : s.advance.v = s.v := by rfl
@[simp] theorem advance_i : s.advance.i = s.i := by rfl
@[simp] theorem advance_pc : s.advance.pc = s.pc + 2 := by rfl
@[simp] theorem advance_stack : s.advance.stack = s.stack := by rfl
@[simp] theorem advance_sp : s.advance.sp = s.sp := by rfl
@[simp] theorem advance_dt : s.advance.dt = s.dt := by rfl
@[simp] theorem advance_st : s.advance.st = s.st := by rfl
@[simp] theorem advance_fb : s.advance.fb = s.fb := by rfl
@[simp] theorem advance_keys : s.advance.keys = s.keys := by rfl
@[simp] theorem advance_prevKeys : s.advance.prevKeys = s.prevKeys := by rfl
@[simp] theorem advance_frameReady : s.advance.frameReady = s.frameReady := by rfl
@[simp] theorem advance_zc : s.advance.zc = s.zc := by rfl
@[simp] theorem advance_div : s.advance.div = s.div := by rfl
@[simp] theorem advance_wait : s.advance.wait = s.wait := by rfl
@[simp] theorem advance_status : s.advance.status = s.status := by rfl
@[simp] theorem advance_config : s.advance.config = s.config := by rfl
@[simp] theorem advance_out : s.advance.out = s.out := by rfl
@[simp] theorem advance_rnd : s.advance.rnd = s.rnd := by rfl
@[simp] theorem advance_inputs : s.advance.inputs = s.inputs := by rfl
@[simp] theorem advance_cycle : s.advance.cycle = s.cycle := by rfl

/-! ### skipIf -/

@[simp] theorem skipIf_mem (c : Bool) : (s.skipIf c).mem = s.mem := by rfl
@[simp] theorem skipIf_v (c : Bool) : (s.skipIf c).v = s.v := by rfl
@[simp] theorem skipIf_i (c : Bool) : (s.skipIf c).i = s.i := by rfl
@[simp] theorem skipIf_pc (c : Bool) : (s.skipIf c).pc = s.pc + if c then 4 else 2 := by rfl
@[simp] theorem skipIf_stack (c : Bool) : (s.skipIf c).stack = s.stack := by rfl
@[simp] theorem skipIf_sp (c : Bool) : (s.skipIf c).sp = s.sp := by rfl
@[simp] theorem skipIf_dt (c : Bool) : (s.skipIf c).dt = s.dt := by rfl
@[simp] theorem skipIf_st (c : Bool) : (s.skipIf c).st = s.st := by rfl
@[simp] theorem skipIf_fb (c : Bool) : (s.skipIf c).fb = s.fb := by rfl
@[simp] theorem skipIf_keys (c : Bool) : (s.skipIf c).keys = s.keys := by rfl
@[simp] theorem skipIf_prevKeys (c : Bool) : (s.skipIf c).prevKeys = s.prevKeys := by rfl
@[simp] theorem skipIf_frameReady (c : Bool) : (s.skipIf c).frameReady = s.frameReady := by rfl
@[simp] theorem skipIf_zc (c : Bool) : (s.skipIf c).zc = s.zc := by rfl
@[simp] theorem skipIf_div (c : Bool) : (s.skipIf c).div = s.div := by rfl
@[simp] theorem skipIf_wait (c : Bool) : (s.skipIf c).wait = s.wait := by rfl
@[simp] theorem skipIf_status (c : Bool) : (s.skipIf c).status = s.status := by rfl
@[simp] theorem skipIf_config (c : Bool) : (s.skipIf c).config = s.config := by rfl
@[simp] theorem skipIf_out (c : Bool) : (s.skipIf c).out = s.out := by rfl
@[simp] theorem skipIf_rnd (c : Bool) : (s.skipIf c).rnd = s.rnd := by rfl
@[simp] theorem skipIf_inputs (c : Bool) : (s.skipIf c).inputs = s.inputs := by rfl
@[simp] theorem skipIf_cycle (c : Bool) : (s.skipIf c).cycle = s.cycle := by rfl

/-! ### setI -/

@[simp] theorem setI_mem (w : Word) : (s.setI w).mem = s.mem := by rfl
@[simp] theorem setI_v (w : Word) : (s.setI w).v = s.v := by rfl
@[simp] theorem setI_i (w : Word) : (s.setI w).i = w := by rfl
@[simp] theorem setI_pc (w : Word) : (s.setI w).pc = s.pc := by rfl
@[simp] theorem setI_stack (w : Word) : (s.setI w).stack = s.stack := by rfl
@[simp] theorem setI_sp (w : Word) : (s.setI w).sp = s.sp := by rfl
@[simp] theorem setI_dt (w : Word) : (s.setI w).dt = s.dt := by rfl
@[simp] theorem setI_st (w : Word) : (s.setI w).st = s.st := by rfl
@[simp] theorem setI_fb (w : Word) : (s.setI w).fb = s.fb := by rfl
@[simp] theorem setI_keys (w : Word) : (s.setI w).keys = s.keys := by rfl
@[simp] theorem setI_prevKeys (w : Word) : (s.setI w).prevKeys = s.prevKeys := by rfl
@[simp] theorem setI_frameReady (w : Word) : (s.setI w).frameReady = s.frameReady := by rfl
@[simp] theorem setI_zc (w : Word) : (s.setI w).zc = s.zc := by rfl
@[simp] theorem setI_div (w : Word) : (s.setI w).div = s.div := by rfl
@[simp] theorem setI_wait (w : Word) : (s.setI w).wait = s.wait := by rfl
@[simp] theorem setI_status (w : Word) : (s.setI w).status = s.status := by rfl
@[simp] theorem setI_config (w : Word) : (s.setI w).config = s.config := by rfl
@[simp] theorem setI_out (w : Word) : (s.setI w).out = s.out := by rfl
@[simp] theorem setI_rnd (w : Word) : (s.setI w).rnd = s.rnd := by rfl
@[simp] theorem setI_inputs (w : Word) : (s.setI w).inputs = s.inputs := by rfl
@[simp] theorem setI_cycle (w : Word) : (s.setI w).cycle = s.cycle := by rfl

/-! ### setDt -/

@[simp] theorem setDt_mem (b : Byte) : (s.setDt b).mem = s.mem := by rfl
@[simp] theorem setDt_v (b : Byte) : (s.setDt b).v = s.v := by rfl
@[simp] theorem setDt_i (b : Byte) : (s.setDt b).i = s.i := by rfl
@[simp] theorem setDt_pc (b : Byte) : (s.setDt b).pc = s.pc := by rfl
@[simp] theorem setDt_stack (b : Byte) : (s.setDt b).stack = s.stack := by rfl
@[simp] theorem setDt_sp (b : Byte) : (s.setDt b).sp = s.sp := by rfl
@[simp] theorem setDt_dt (b : Byte) : (s.setDt b).dt = b := by rfl
@[simp] theorem setDt_st (b : Byte) : (s.setDt b).st = s.st := by rfl
@[simp] theorem setDt_fb (b : Byte) : (s.setDt b).fb = s.fb := by rfl
@[simp] theorem setDt_keys (b : Byte) : (s.setDt b).keys = s.keys := by rfl
@[simp] theorem setDt_prevKeys (b : Byte) : (s.setDt b).prevKeys = s.prevKeys := by rfl
@[simp] theorem setDt_frameReady (b : Byte) : (s.setDt b).frameReady = s.frameReady := by rfl
@[simp] theorem setDt_zc (b : Byte) : (s.setDt b).zc = s.zc := by rfl
@[simp] theorem setDt_div (b : Byte) : (s.setDt b).div = s.div := by rfl
@[simp] theorem setDt_wait (b : Byte) : (s.setDt b).wait = s.wait := by rfl
@[simp] theorem setDt_status (b : Byte) : (s.setDt b).status = s.status := by rfl
@[simp] theorem setDt_config (b : Byte) : (s.setDt b).config = s.config := by rfl
@[simp] theorem setDt_out (b : Byte) : (s.setDt b).out = s.out := by rfl
@[simp] theorem setDt_rnd (b : Byte) : (s.setDt b).rnd = s.rnd := by rfl
@[simp] theorem setDt_inputs (b : Byte) : (s.setDt b).inputs = s.inputs := by rfl
@[simp] theorem setDt_cycle (b : Byte) : (s.setDt b).cycle = s.cycle := by rfl

/-! ### setSt -/

@[simp] theorem setSt_mem (b : Byte) : (s.setSt b).mem = s.mem := by rfl
@[simp] theorem setSt_v (b : Byte) : (s.setSt b).v = s.v := by rfl
@[simp] theorem setSt_i (b : Byte) : (s.setSt b).i = s.i := by rfl
@[simp] theorem setSt_pc (b : Byte) : (s.setSt b).pc = s.pc := by rfl
@[simp] theorem setSt_stack (b : Byte) : (s.setSt b).stack = s.stack := by rfl
@[simp] theorem setSt_sp (b : Byte) : (s.setSt b).sp = s.sp := by rfl
@[simp] theorem setSt_dt (b : Byte) : (s.setSt b).dt = s.dt := by rfl
@[simp] theorem setSt_st (b : Byte) : (s.setSt b).st = b := by rfl
@[simp] theorem setSt_fb (b : Byte) : (s.setSt b).fb = s.fb := by rfl
@[simp] theorem setSt_keys (b : Byte) : (s.setSt b).keys = s.keys := by rfl
@[simp] theorem setSt_prevKeys (b : Byte) : (s.setSt b).prevKeys = s.prevKeys := by rfl
@[simp] theorem setSt_frameReady (b : Byte) : (s.setSt b).frameReady = s.frameReady := by rfl
@[simp] theorem setSt_zc (b : Byte) : (s.setSt b).zc = s.zc := by rfl
@[simp] theorem setSt_div (b : Byte) : (s.setSt b).div = s.div := by rfl
@[simp] theorem setSt_wait (b : Byte) : (s.setSt b).wait = s.wait := by rfl
@[simp] theorem setSt_status (b : Byte) : (s.setSt b).status = s.status := by rfl
@[simp] theorem setSt_config (b : Byte) : (s.setSt b).config = s.config := by rfl
@[simp] theorem setSt_out (b : Byte) : (s.setSt b).out = s.out := by rfl
@[simp] theorem setSt_rnd (b : Byte) : (s.setSt b).rnd = s.rnd := by rfl
@[simp] theorem setSt_inputs (b : Byte) : (s.setSt b).inputs = s.inputs := by rfl
@[simp] theorem setSt_cycle (b : Byte) : (s.setSt b).cycle = s.cycle := by rfl

/-! ### advanceIndex -/

@[simp] theorem advanceIndex_mem (n : Nat) : (s.advanceIndex n).mem = s.mem := by rfl
@[simp] theorem advanceIndex_v (n : Nat) : (s.advanceIndex n).v = s.v := by rfl
@[simp] theorem advanceIndex_i (n : Nat) :
    (s.advanceIndex n).i = if s.config.iMaskAfterTransfer then
      BitVec.ofNat 16 (s.i.toNat + n) &&& 0xFFF else BitVec.ofNat 16 (s.i.toNat + n) := by rfl
@[simp] theorem advanceIndex_pc (n : Nat) : (s.advanceIndex n).pc = s.pc := by rfl
@[simp] theorem advanceIndex_stack (n : Nat) : (s.advanceIndex n).stack = s.stack := by rfl
@[simp] theorem advanceIndex_sp (n : Nat) : (s.advanceIndex n).sp = s.sp := by rfl
@[simp] theorem advanceIndex_dt (n : Nat) : (s.advanceIndex n).dt = s.dt := by rfl
@[simp] theorem advanceIndex_st (n : Nat) : (s.advanceIndex n).st = s.st := by rfl
@[simp] theorem advanceIndex_fb (n : Nat) : (s.advanceIndex n).fb = s.fb := by rfl
@[simp] theorem advanceIndex_keys (n : Nat) : (s.advanceIndex n).keys = s.keys := by rfl
@[simp] theorem advanceIndex_prevKeys (n : Nat) : (s.advanceIndex n).prevKeys = s.prevKeys := by rfl
@[simp] theorem advanceIndex_frameReady (n : Nat) : (s.advanceIndex n).frameReady = s.frameReady := by rfl
@[simp] theorem advanceIndex_zc (n : Nat) : (s.advanceIndex n).zc = s.zc := by rfl
@[simp] theorem advanceIndex_div (n : Nat) : (s.advanceIndex n).div = s.div := by rfl
@[simp] theorem advanceIndex_wait (n : Nat) : (s.advanceIndex n).wait = s.wait := by rfl
@[simp] theorem advanceIndex_status (n : Nat) : (s.advanceIndex n).status = s.status := by rfl
@[simp] theorem advanceIndex_config (n : Nat) : (s.advanceIndex n).config = s.config := by rfl
@[simp] theorem advanceIndex_out (n : Nat) : (s.advanceIndex n).out = s.out := by rfl
@[simp] theorem advanceIndex_rnd (n : Nat) : (s.advanceIndex n).rnd = s.rnd := by rfl
@[simp] theorem advanceIndex_inputs (n : Nat) : (s.advanceIndex n).inputs = s.inputs := by rfl
@[simp] theorem advanceIndex_cycle (n : Nat) : (s.advanceIndex n).cycle = s.cycle := by rfl

/-! ### setRegBlock -/

@[simp] theorem setRegBlock_mem (l : List Byte) : (s.setRegBlock l).mem = s.mem := by rfl
@[simp] theorem setRegBlock_v (l : List Byte) : (s.setRegBlock l).v = loadBlock s.v 0 l := by rfl
@[simp] theorem setRegBlock_i (l : List Byte) : (s.setRegBlock l).i = s.i := by rfl
@[simp] theorem setRegBlock_pc (l : List Byte) : (s.setRegBlock l).pc = s.pc := by rfl
@[simp] theorem setRegBlock_stack (l : List Byte) : (s.setRegBlock l).stack = s.stack := by rfl
@[simp] theorem setRegBlock_sp (l : List Byte) : (s.setRegBlock l).sp = s.sp := by rfl
@[simp] theorem setRegBlock_dt (l : List Byte) : (s.setRegBlock l).dt = s.dt := by rfl
@[simp] theorem setRegBlock_st (l : List Byte) : (s.setRegBlock l).st = s.st := by rfl
@[simp] theorem setRegBlock_fb (l : List Byte) : (s.setRegBlock l).fb = s.fb := by rfl
@[simp] theorem setRegBlock_keys (l : List Byte) : (s.setRegBlock l).keys = s.keys := by rfl
@[simp] theorem setRegBlock_prevKeys (l : List Byte) : (s.setRegBlock l).prevKeys = s.prevKeys := by rfl
@[simp] theorem setRegBlock_frameReady (l : List Byte) :
    (s.setRegBlock l).frameReady = s.frameReady := by rfl
@[simp] theorem setRegBlock_zc (l : List Byte) : (s.setRegBlock l).zc = s.zc := by rfl
@[simp] theorem setRegBlock_div (l : List Byte) : (s.setRegBlock l).div = s.div := by rfl
@[simp] theorem setRegBlock_wait (l : List Byte) : (s.setRegBlock l).wait = s.wait := by rfl
@[simp] theorem setRegBlock_status (l : List Byte) : (s.setRegBlock l).status = s.status := by rfl
@[simp] theorem setRegBlock_config (l : List Byte) : (s.setRegBlock l).config = s.config := by rfl
@[simp] theorem setRegBlock_out (l : List Byte) : (s.setRegBlock l).out = s.out := by rfl
@[simp] theorem setRegBlock_rnd (l : List Byte) : (s.setRegBlock l).rnd = s.rnd := by rfl
@[simp] theorem setRegBlock_inputs (l : List Byte) : (s.setRegBlock l).inputs = s.inputs := by rfl
@[simp] theorem setRegBlock_cycle (l : List Byte) : (s.setRegBlock l).cycle = s.cycle := by rfl

/-! ### setFrame -/

@[simp] theorem setFrame_mem (fb : Frame) : (s.setFrame fb).mem = s.mem := by rfl
@[simp] theorem setFrame_v (fb : Frame) : (s.setFrame fb).v = s.v := by rfl
@[simp] theorem setFrame_i (fb : Frame) : (s.setFrame fb).i = s.i := by rfl
@[simp] theorem setFrame_pc (fb : Frame) : (s.setFrame fb).pc = s.pc := by rfl
@[simp] theorem setFrame_stack (fb : Frame) : (s.setFrame fb).stack = s.stack := by rfl
@[simp] theorem setFrame_sp (fb : Frame) : (s.setFrame fb).sp = s.sp := by rfl
@[simp] theorem setFrame_dt (fb : Frame) : (s.setFrame fb).dt = s.dt := by rfl
@[simp] theorem setFrame_st (fb : Frame) : (s.setFrame fb).st = s.st := by rfl
@[simp] theorem setFrame_fb (fb : Frame) : (s.setFrame fb).fb = fb := by rfl
@[simp] theorem setFrame_keys (fb : Frame) : (s.setFrame fb).keys = s.keys := by rfl
@[simp] theorem setFrame_prevKeys (fb : Frame) : (s.setFrame fb).prevKeys = s.prevKeys := by rfl
@[simp] theorem setFrame_frameReady (fb : Frame) : (s.setFrame fb).frameReady = true := by rfl
@[simp] theorem setFrame_zc (fb : Frame) : (s.setFrame fb).zc = s.zc := by rfl
@[simp] theorem setFrame_div (fb : Frame) : (s.setFrame fb).div = s.div := by rfl
@[simp] theorem setFrame_wait (fb : Frame) : (s.setFrame fb).wait = s.wait := by rfl
@[simp] theorem setFrame_status (fb : Frame) : (s.setFrame fb).status = s.status := by rfl
@[simp] theorem setFrame_config (fb : Frame) : (s.setFrame fb).config = s.config := by rfl
@[simp] theorem setFrame_out (fb : Frame) : (s.setFrame fb).out = s.out := by rfl
@[simp] theorem setFrame_rnd (fb : Frame) : (s.setFrame fb).rnd = s.rnd := by rfl
@[simp] theorem setFrame_inputs (fb : Frame) : (s.setFrame fb).inputs = s.inputs := by rfl
@[simp] theorem setFrame_cycle (fb : Frame) : (s.setFrame fb).cycle = s.cycle := by rfl

/-! ### setWait -/

@[simp] theorem setWait_mem (w : Wait) : (s.setWait w).mem = s.mem := by rfl
@[simp] theorem setWait_v (w : Wait) : (s.setWait w).v = s.v := by rfl
@[simp] theorem setWait_i (w : Wait) : (s.setWait w).i = s.i := by rfl
@[simp] theorem setWait_pc (w : Wait) : (s.setWait w).pc = s.pc := by rfl
@[simp] theorem setWait_stack (w : Wait) : (s.setWait w).stack = s.stack := by rfl
@[simp] theorem setWait_sp (w : Wait) : (s.setWait w).sp = s.sp := by rfl
@[simp] theorem setWait_dt (w : Wait) : (s.setWait w).dt = s.dt := by rfl
@[simp] theorem setWait_st (w : Wait) : (s.setWait w).st = s.st := by rfl
@[simp] theorem setWait_fb (w : Wait) : (s.setWait w).fb = s.fb := by rfl
@[simp] theorem setWait_keys (w : Wait) : (s.setWait w).keys = s.keys := by rfl
@[simp] theorem setWait_prevKeys (w : Wait) : (s.setWait w).prevKeys = s.prevKeys := by rfl
@[simp] theorem setWait_frameReady (w : Wait) : (s.setWait w).frameReady = s.frameReady := by rfl
@[simp] theorem setWait_zc (w : Wait) : (s.setWait w).zc = s.zc := by rfl
@[simp] theorem setWait_div (w : Wait) : (s.setWait w).div = s.div := by rfl
@[simp] theorem setWait_wait (w : Wait) : (s.setWait w).wait = w := by rfl
@[simp] theorem setWait_status (w : Wait) : (s.setWait w).status = s.status := by rfl
@[simp] theorem setWait_config (w : Wait) : (s.setWait w).config = s.config := by rfl
@[simp] theorem setWait_out (w : Wait) : (s.setWait w).out = s.out := by rfl
@[simp] theorem setWait_rnd (w : Wait) : (s.setWait w).rnd = s.rnd := by rfl
@[simp] theorem setWait_inputs (w : Wait) : (s.setWait w).inputs = s.inputs := by rfl
@[simp] theorem setWait_cycle (w : Wait) : (s.setWait w).cycle = s.cycle := by rfl

/-! ### emitDiag -/

@[simp] theorem emitDiag_mem (op : Word) : (s.emitDiag op).mem = s.mem := by rfl
@[simp] theorem emitDiag_v (op : Word) : (s.emitDiag op).v = s.v := by rfl
@[simp] theorem emitDiag_i (op : Word) : (s.emitDiag op).i = s.i := by rfl
@[simp] theorem emitDiag_pc (op : Word) : (s.emitDiag op).pc = s.pc := by rfl
@[simp] theorem emitDiag_stack (op : Word) : (s.emitDiag op).stack = s.stack := by rfl
@[simp] theorem emitDiag_sp (op : Word) : (s.emitDiag op).sp = s.sp := by rfl
@[simp] theorem emitDiag_dt (op : Word) : (s.emitDiag op).dt = s.dt := by rfl
@[simp] theorem emitDiag_st (op : Word) : (s.emitDiag op).st = s.st := by rfl
@[simp] theorem emitDiag_fb (op : Word) : (s.emitDiag op).fb = s.fb := by rfl
@[simp] theorem emitDiag_keys (op : Word) : (s.emitDiag op).keys = s.keys := by rfl
@[simp] theorem emitDiag_prevKeys (op : Word) : (s.emitDiag op).prevKeys = s.prevKeys := by rfl
@[simp] theorem emitDiag_frameReady (op : Word) : (s.emitDiag op).frameReady = s.frameReady := by rfl
@[simp] theorem emitDiag_zc (op : Word) : (s.emitDiag op).zc = s.zc := by rfl
@[simp] theorem emitDiag_div (op : Word) : (s.emitDiag op).div = s.div := by rfl
@[simp] theorem emitDiag_wait (op : Word) : (s.emitDiag op).wait = s.wait := by rfl
@[simp] theorem emitDiag_status (op : Word) : (s.emitDiag op).status = s.status := by rfl
@[simp] theorem emitDiag_config (op : Word) : (s.emitDiag op).config = s.config := by rfl
@[simp] theorem emitDiag_out (op : Word) :
    (s.emitDiag op).out = { s.out with diag := some (op, s.pc) } := by rfl
@[simp] theorem emitDiag_rnd (op : Word) : (s.emitDiag op).rnd = s.rnd := by rfl
@[simp] theorem emitDiag_inputs (op : Word) : (s.emitDiag op).inputs = s.inputs := by rfl
@[simp] theorem emitDiag_cycle (op : Word) : (s.emitDiag op).cycle = s.cycle := by rfl

/-! ### takeFault -/

@[simp] theorem takeFault_mem (f : Fault) (op : Option Word) : (s.takeFault f op).mem = s.mem := by rfl
@[simp] theorem takeFault_v (f : Fault) (op : Option Word) : (s.takeFault f op).v = s.v := by rfl
@[simp] theorem takeFault_i (f : Fault) (op : Option Word) : (s.takeFault f op).i = s.i := by rfl
@[simp] theorem takeFault_pc (f : Fault) (op : Option Word) : (s.takeFault f op).pc = s.pc := by rfl
@[simp] theorem takeFault_stack (f : Fault) (op : Option Word) :
    (s.takeFault f op).stack = s.stack := by rfl
@[simp] theorem takeFault_sp (f : Fault) (op : Option Word) : (s.takeFault f op).sp = s.sp := by rfl
@[simp] theorem takeFault_dt (f : Fault) (op : Option Word) : (s.takeFault f op).dt = s.dt := by rfl
@[simp] theorem takeFault_st (f : Fault) (op : Option Word) : (s.takeFault f op).st = s.st := by rfl
@[simp] theorem takeFault_fb (f : Fault) (op : Option Word) : (s.takeFault f op).fb = s.fb := by rfl
@[simp] theorem takeFault_keys (f : Fault) (op : Option Word) : (s.takeFault f op).keys = s.keys := by rfl
@[simp] theorem takeFault_prevKeys (f : Fault) (op : Option Word) :
    (s.takeFault f op).prevKeys = s.prevKeys := by rfl
@[simp] theorem takeFault_frameReady (f : Fault) (op : Option Word) :
    (s.takeFault f op).frameReady = s.frameReady := by rfl
@[simp] theorem takeFault_zc (f : Fault) (op : Option Word) : (s.takeFault f op).zc = s.zc := by rfl
@[simp] theorem takeFault_div (f : Fault) (op : Option Word) : (s.takeFault f op).div = s.div := by rfl
@[simp] theorem takeFault_wait (f : Fault) (op : Option Word) : (s.takeFault f op).wait = s.wait := by rfl
@[simp] theorem takeFault_status (f : Fault) (op : Option Word) :
    (s.takeFault f op).status = .faulted f s.pc op := by rfl
@[simp] theorem takeFault_config (f : Fault) (op : Option Word) :
    (s.takeFault f op).config = s.config := by rfl
@[simp] theorem takeFault_out (f : Fault) (op : Option Word) : (s.takeFault f op).out = s.out := by rfl
@[simp] theorem takeFault_rnd (f : Fault) (op : Option Word) : (s.takeFault f op).rnd = s.rnd := by rfl
@[simp] theorem takeFault_inputs (f : Fault) (op : Option Word) :
    (s.takeFault f op).inputs = s.inputs := by rfl
@[simp] theorem takeFault_cycle (f : Fault) (op : Option Word) :
    (s.takeFault f op).cycle = s.cycle := by rfl

/-! ### halt -/

@[simp] theorem halt_mem : s.halt.mem = s.mem := by rfl
@[simp] theorem halt_v : s.halt.v = s.v := by rfl
@[simp] theorem halt_i : s.halt.i = s.i := by rfl
@[simp] theorem halt_pc : s.halt.pc = s.pc := by rfl
@[simp] theorem halt_stack : s.halt.stack = s.stack := by rfl
@[simp] theorem halt_sp : s.halt.sp = s.sp := by rfl
@[simp] theorem halt_dt : s.halt.dt = s.dt := by rfl
@[simp] theorem halt_st : s.halt.st = s.st := by rfl
@[simp] theorem halt_fb : s.halt.fb = s.fb := by rfl
@[simp] theorem halt_keys : s.halt.keys = s.keys := by rfl
@[simp] theorem halt_prevKeys : s.halt.prevKeys = s.prevKeys := by rfl
@[simp] theorem halt_frameReady : s.halt.frameReady = s.frameReady := by rfl
@[simp] theorem halt_zc : s.halt.zc = s.zc := by rfl
@[simp] theorem halt_div : s.halt.div = s.div := by rfl
@[simp] theorem halt_wait : s.halt.wait = s.wait := by rfl
@[simp] theorem halt_status : s.halt.status = .halted s.pc := by rfl
@[simp] theorem halt_config : s.halt.config = s.config := by rfl
@[simp] theorem halt_out : s.halt.out = s.out := by rfl
@[simp] theorem halt_rnd : s.halt.rnd = s.rnd := by rfl
@[simp] theorem halt_inputs : s.halt.inputs = s.inputs := by rfl
@[simp] theorem halt_cycle : s.halt.cycle = s.cycle := by rfl

/-! ### stopRun -/

@[simp] theorem stopRun_mem : s.stopRun.mem = s.mem := by rfl
@[simp] theorem stopRun_v : s.stopRun.v = s.v := by rfl
@[simp] theorem stopRun_i : s.stopRun.i = s.i := by rfl
@[simp] theorem stopRun_pc : s.stopRun.pc = s.pc := by rfl
@[simp] theorem stopRun_stack : s.stopRun.stack = s.stack := by rfl
@[simp] theorem stopRun_sp : s.stopRun.sp = s.sp := by rfl
@[simp] theorem stopRun_dt : s.stopRun.dt = s.dt := by rfl
@[simp] theorem stopRun_st : s.stopRun.st = s.st := by rfl
@[simp] theorem stopRun_fb : s.stopRun.fb = s.fb := by rfl
@[simp] theorem stopRun_keys : s.stopRun.keys = s.keys := by rfl
@[simp] theorem stopRun_prevKeys : s.stopRun.prevKeys = s.prevKeys := by rfl
@[simp] theorem stopRun_frameReady : s.stopRun.frameReady = s.frameReady := by rfl
@[simp] theorem stopRun_zc : s.stopRun.zc = s.zc := by rfl
@[simp] theorem stopRun_div : s.stopRun.div = s.div := by rfl
@[simp] theorem stopRun_wait : s.stopRun.wait = s.wait := by rfl
@[simp] theorem stopRun_status : s.stopRun.status = .stopped s.cycle := by rfl
@[simp] theorem stopRun_config : s.stopRun.config = s.config := by rfl
@[simp] theorem stopRun_out : s.stopRun.out = s.out := by rfl
@[simp] theorem stopRun_rnd : s.stopRun.rnd = s.rnd := by rfl
@[simp] theorem stopRun_inputs : s.stopRun.inputs = s.inputs := by rfl
@[simp] theorem stopRun_cycle : s.stopRun.cycle = s.cycle := by rfl

/-! ### beginCycle -/

@[simp] theorem beginCycle_mem : s.beginCycle.mem = s.mem := by rfl
@[simp] theorem beginCycle_v : s.beginCycle.v = s.v := by rfl
@[simp] theorem beginCycle_i : s.beginCycle.i = s.i := by rfl
@[simp] theorem beginCycle_pc : s.beginCycle.pc = s.pc := by rfl
@[simp] theorem beginCycle_stack : s.beginCycle.stack = s.stack := by rfl
@[simp] theorem beginCycle_sp : s.beginCycle.sp = s.sp := by rfl
@[simp] theorem beginCycle_dt : s.beginCycle.dt = s.dt := by rfl
@[simp] theorem beginCycle_st : s.beginCycle.st = s.st := by rfl
@[simp] theorem beginCycle_fb : s.beginCycle.fb = s.fb := by rfl
@[simp] theorem beginCycle_keys : s.beginCycle.keys = s.keys := by rfl
@[simp] theorem beginCycle_prevKeys : s.beginCycle.prevKeys = s.prevKeys := by rfl
@[simp] theorem beginCycle_frameReady : s.beginCycle.frameReady = s.frameReady := by rfl
@[simp] theorem beginCycle_zc : s.beginCycle.zc = s.zc := by rfl
@[simp] theorem beginCycle_div : s.beginCycle.div = s.div := by rfl
@[simp] theorem beginCycle_wait : s.beginCycle.wait = s.wait := by rfl
@[simp] theorem beginCycle_status : s.beginCycle.status = s.status := by rfl
@[simp] theorem beginCycle_config : s.beginCycle.config = s.config := by rfl
@[simp] theorem beginCycle_out : s.beginCycle.out = Outputs.quiet := by rfl
@[simp] theorem beginCycle_rnd : s.beginCycle.rnd = s.rnd := by rfl
@[simp] theorem beginCycle_inputs : s.beginCycle.inputs = s.inputs.tail := by rfl
@[simp] theorem beginCycle_cycle : s.beginCycle.cycle = s.cycle + 1 := by rfl

/-! ### latch -/

@[simp] theorem latch_mem (n : CycleInput) : (s.latch n).mem = s.mem := by rfl
@[simp] theorem latch_v (n : CycleInput) : (s.latch n).v = s.v := by rfl
@[simp] theorem latch_i (n : CycleInput) : (s.latch n).i = s.i := by rfl
@[simp] theorem latch_pc (n : CycleInput) : (s.latch n).pc = s.pc := by rfl
@[simp] theorem latch_stack (n : CycleInput) : (s.latch n).stack = s.stack := by rfl
@[simp] theorem latch_sp (n : CycleInput) : (s.latch n).sp = s.sp := by rfl
@[simp] theorem latch_dt (n : CycleInput) : (s.latch n).dt = s.dt := by rfl
@[simp] theorem latch_st (n : CycleInput) : (s.latch n).st = s.st := by rfl
@[simp] theorem latch_fb (n : CycleInput) : (s.latch n).fb = s.fb := by rfl
@[simp] theorem latch_keys (n : CycleInput) : (s.latch n).keys = n.keys := by rfl
@[simp] theorem latch_prevKeys (n : CycleInput) : (s.latch n).prevKeys = s.keys := by rfl
@[simp] theorem latch_frameReady (n : CycleInput) : (s.latch n).frameReady = s.frameReady := by rfl
@[simp] theorem latch_zc (n : CycleInput) : (s.latch n).zc = s.zc := by rfl
@[simp] theorem latch_div (n : CycleInput) : (s.latch n).div = s.div := by rfl
@[simp] theorem latch_wait (n : CycleInput) : (s.latch n).wait = s.wait := by rfl
@[simp] theorem latch_status (n : CycleInput) : (s.latch n).status = s.status := by rfl
@[simp] theorem latch_config (n : CycleInput) : (s.latch n).config = s.config := by rfl
@[simp] theorem latch_out (n : CycleInput) : (s.latch n).out = s.out := by rfl
@[simp] theorem latch_rnd (n : CycleInput) : (s.latch n).rnd = n.rnd := by rfl
@[simp] theorem latch_inputs (n : CycleInput) : (s.latch n).inputs = s.inputs := by rfl
@[simp] theorem latch_cycle (n : CycleInput) : (s.latch n).cycle = s.cycle := by rfl

/-! ### countFetch -/

@[simp] theorem countFetch_mem (op : Word) : (s.countFetch op).mem = s.mem := by rfl
@[simp] theorem countFetch_v (op : Word) : (s.countFetch op).v = s.v := by rfl
@[simp] theorem countFetch_i (op : Word) : (s.countFetch op).i = s.i := by rfl
@[simp] theorem countFetch_pc (op : Word) : (s.countFetch op).pc = s.pc := by rfl
@[simp] theorem countFetch_stack (op : Word) : (s.countFetch op).stack = s.stack := by rfl
@[simp] theorem countFetch_sp (op : Word) : (s.countFetch op).sp = s.sp := by rfl
@[simp] theorem countFetch_dt (op : Word) : (s.countFetch op).dt = s.dt := by rfl
@[simp] theorem countFetch_st (op : Word) : (s.countFetch op).st = s.st := by rfl
@[simp] theorem countFetch_fb (op : Word) : (s.countFetch op).fb = s.fb := by rfl
@[simp] theorem countFetch_keys (op : Word) : (s.countFetch op).keys = s.keys := by rfl
@[simp] theorem countFetch_prevKeys (op : Word) : (s.countFetch op).prevKeys = s.prevKeys := by rfl
@[simp] theorem countFetch_frameReady (op : Word) : (s.countFetch op).frameReady = s.frameReady := by rfl
@[simp] theorem countFetch_zc (op : Word) : (s.countFetch op).zc = if op = 0 then s.zc + 1 else 0 := by rfl
@[simp] theorem countFetch_div (op : Word) : (s.countFetch op).div = s.div := by rfl
@[simp] theorem countFetch_wait (op : Word) : (s.countFetch op).wait = s.wait := by rfl
@[simp] theorem countFetch_status (op : Word) : (s.countFetch op).status = s.status := by rfl
@[simp] theorem countFetch_config (op : Word) : (s.countFetch op).config = s.config := by rfl
@[simp] theorem countFetch_out (op : Word) : (s.countFetch op).out = s.out := by rfl
@[simp] theorem countFetch_rnd (op : Word) : (s.countFetch op).rnd = s.rnd := by rfl
@[simp] theorem countFetch_inputs (op : Word) : (s.countFetch op).inputs = s.inputs := by rfl
@[simp] theorem countFetch_cycle (op : Word) : (s.countFetch op).cycle = s.cycle := by rfl

/-! ### tick -/

@[simp] theorem tick_mem : s.tick.mem = s.mem := by rfl
@[simp] theorem tick_v : s.tick.v = s.v := by rfl
@[simp] theorem tick_i : s.tick.i = s.i := by rfl
@[simp] theorem tick_pc : s.tick.pc = s.pc := by rfl
@[simp] theorem tick_stack : s.tick.stack = s.stack := by rfl
@[simp] theorem tick_sp : s.tick.sp = s.sp := by rfl
@[simp] theorem tick_dt : s.tick.dt = if s.dt = 0 then 0 else s.dt - 1 := by rfl
@[simp] theorem tick_st : s.tick.st = if s.st = 0 then 0 else s.st - 1 := by rfl
@[simp] theorem tick_fb : s.tick.fb = s.fb := by rfl
@[simp] theorem tick_keys : s.tick.keys = s.keys := by rfl
@[simp] theorem tick_prevKeys : s.tick.prevKeys = s.prevKeys := by rfl
@[simp] theorem tick_frameReady : s.tick.frameReady = s.frameReady := by rfl
@[simp] theorem tick_zc : s.tick.zc = s.zc := by rfl
@[simp] theorem tick_div : s.tick.div = s.div := by rfl
@[simp] theorem tick_wait : s.tick.wait = s.wait := by rfl
@[simp] theorem tick_status : s.tick.status = s.status := by rfl
@[simp] theorem tick_config : s.tick.config = s.config := by rfl
@[simp] theorem tick_out : s.tick.out = { s.out with beep := s.out.beep || s.st == 1 } := by rfl
@[simp] theorem tick_rnd : s.tick.rnd = s.rnd := by rfl
@[simp] theorem tick_inputs : s.tick.inputs = s.inputs := by rfl
@[simp] theorem tick_cycle : s.tick.cycle = s.cycle := by rfl

end Sys2Proof.Machine.State
end

