-- ==== Sys2Proof/Laws/Ops.lean ====
section
/-!
SUPPORT. What the shared operations do: registers, register blocks, the stack controller, checked memory
accesses, flags, the key wait.
-/
namespace Sys2Proof.Machine

/-! ## Raising -/

@[simp] theorem andThen_ok {α : Type} (a : α) (k : α → Result) : andThen (.ok a) k = k a := by rfl
@[simp] theorem andThen_error {α : Type} (f : Fault) (k : α → Result) :
    andThen (.error f) k = .fault f := by rfl

theorem andThen_eq_next {α : Type} {r : Except Fault α} {k : α → Result} {t : State} :
    andThen r k = .next t ↔ ∃ a, r = .ok a ∧ k a = .next t := by
  cases r <;> simp

theorem andThen_eq_fault {α : Type} {r : Except Fault α} {k : α → Result} {f : Fault} :
    andThen r k = .fault f ↔ r = .error f ∨ ∃ a, r = .ok a ∧ k a = .fault f := by
  cases r <;> simp

/-! ## Registers -/

/-- `V[y]` after `V[x]` was written (10_state R21). -/
theorem getV_setV (s : State) (x y : Nibble) (b : Byte) :
    (s.setV x b).getV y = if y = x then b else s.getV y := by
  simp only [State.getV, State.setV, Vector.getElem_set]
  by_cases h : y = x
  · subst h; simp
  · have : ¬x.toNat = y.toNat := fun e => h (BitVec.eq_of_toNat_eq e.symm)
    simp [h, this]

@[simp] theorem getV_setV_self (s : State) (x : Nibble) (b : Byte) : (s.setV x b).getV x = b := by
  simp [getV_setV]

theorem getV_setV_ne {s : State} {x y : Nibble} {b : Byte} (h : y ≠ x) :
    (s.setV x b).getV y = s.getV y := by
  simp [getV_setV, h]

/-- `V[y]` depends on the register file alone. -/
theorem getV_congr {s t : State} (h : t.v = s.v) (y : Nibble) : t.getV y = s.getV y := by
  simp [State.getV, h]

section
variable (s : State) (y : Nibble)
@[simp] theorem getV_setPc (w : Word) : (s.setPc w).getV y = s.getV y := by rfl
@[simp] theorem getV_advance : s.advance.getV y = s.getV y := by rfl
@[simp] theorem getV_skipIf (c : Bool) : (s.skipIf c).getV y = s.getV y := by rfl
@[simp] theorem getV_setI (w : Word) : (s.setI w).getV y = s.getV y := by rfl
@[simp] theorem getV_setDt (b : Byte) : (s.setDt b).getV y = s.getV y := by rfl
@[simp] theorem getV_setSt (b : Byte) : (s.setSt b).getV y = s.getV y := by rfl
@[simp] theorem getV_advanceIndex (n : Nat) : (s.advanceIndex n).getV y = s.getV y := by rfl
@[simp] theorem getV_setFrame (fb : Frame) : (s.setFrame fb).getV y = s.getV y := by rfl
@[simp] theorem getV_setWait (w : Wait) : (s.setWait w).getV y = s.getV y := by rfl
@[simp] theorem getV_emitDiag (op : Word) : (s.emitDiag op).getV y = s.getV y := by rfl
end

/-! ## Register blocks -/

theorem getElem_loadBlock (l : List Byte) (v : Vector Byte 16) (j k : Nat) (h : k < 16) :
    (loadBlock v j l)[k] = if j ≤ k ∧ k < j + l.length then l.getD (k - j) 0 else v[k] := by
  induction l generalizing v j with
  | nil => simp [loadBlock] <;> omega
  | cons b l ih =>
    simp only [loadBlock, ih, List.length_cons]
    by_cases h1 : j + 1 ≤ k ∧ k < j + 1 + l.length
    · obtain ⟨m, rfl⟩ : ∃ m, k = j + 1 + m := ⟨k - (j + 1), by omega⟩
      rw [if_pos h1, if_pos (by omega)]
      have e1 : j + 1 + m - (j + 1) = m := by omega
      have e2 : j + 1 + m - j = m + 1 := by omega
      simp [e1, e2]
    · rw [if_neg h1]
      by_cases h3 : j = k
      · subst h3; simp
      · have h2 : ¬(j ≤ k ∧ k < j + (l.length + 1)) := by omega
        simp [h3, h2]

/-- `V[y]` after a block was loaded (43_index_memory R145). -/
theorem getV_setRegBlock (s : State) (l : List Byte) (y : Nibble) :
    (s.setRegBlock l).getV y = if y.toNat < l.length then l.getD y.toNat 0 else s.getV y := by
  simp only [State.getV, State.setRegBlock]
  rw [getElem_loadBlock]
  simp

@[simp] theorem length_regBlock (s : State) (x : Nibble) :
    (s.regBlock (transferCount x)).length = transferCount x := by
  simp only [State.regBlock, transferCount, List.length_take, Vector.length_toList]
  have : x.toNat < 16 := x.isLt
  omega

/-- Byte `k` of a register block is `V[k]` (43_index_memory R144). -/
theorem getElem_regBlock (s : State) (n : Nat) (y : Nibble) (h : y.toNat < (s.regBlock n).length) :
    (s.regBlock n)[y.toNat] = s.getV y := by
  simp [State.regBlock, State.getV]

/-- `I` after a block transfer in bounds (43_index_memory R144, R145). -/
theorem toNat_advanceIndex {s : State} {n : Nat} (h : s.i.toNat + n ≤ 4096) :
    (s.advanceIndex n).i.toNat =
      if s.config.iMaskAfterTransfer then (s.i.toNat + n) % 4096 else s.i.toNat + n := by
  rw [State.advanceIndex_i]
  have e : (s.i.toNat + n) % 65536 = s.i.toNat + n := by omega
  split
  · rw [BitVec.toNat_and]
    simp only [BitVec.toNat_ofNat, Nat.reducePow, BitVec.ofNat_eq_ofNat, Nat.reduceMod, e]
    exact Nat.and_two_pow_sub_one_eq_mod _ 12
  · simp [e]

/-! ## Stack controller -/

/-- What a successful push does (41_control_flow R103). -/
theorem push_eq_ok {s t : State} {a : Word} (h : s.push a = .ok t) :
    ∃ hlt : s.sp.val < 16,
      t = { s with stack := s.stack.set s.sp.val a hlt, sp := ⟨s.sp.val + 1, by omega⟩ } := by
  simp only [State.push] at h
  split at h
  · exact ⟨‹_›, by simpa using h.symm⟩
  · cases h

/-- When a push fails (41_control_flow R103). -/
theorem push_eq_error {s : State} {a : Word} {f : Fault} :
    s.push a = .error f ↔ s.sp.val = 16 ∧ f = .stackOverflow := by
  simp only [State.push]
  split
  · simp; omega
  · have : s.sp.val = 16 := by have := s.sp.isLt; omega
    simp [this, eq_comm]

/-- What a successful pop does (41_control_flow R104). -/
theorem pop_eq_ok {s : State} {p : Word × State} (h : s.pop = .ok p) :
    ∃ _ : s.sp.val ≠ 0,
      p = (s.stack[s.sp.val - 1]'(by omega), { s with sp := ⟨s.sp.val - 1, by omega⟩ }) := by
  simp only [State.pop] at h
  split at h
  · cases h
  · exact ⟨‹_›, by simpa using h.symm⟩

/-- When a pop fails (41_control_flow R104). -/
theorem pop_eq_error {s : State} {f : Fault} :
    s.pop = .error f ↔ s.sp.val = 0 ∧ f = .stackUnderflow := by
  simp only [State.pop]
  split <;> simp [*, eq_comm]

/-! ## Checked memory accesses -/

/-- The bounds check (20_memory R52). -/
theorem outOfBounds_iff {addr n : Nat} : outOfBounds addr n = true ↔ 0 < n ∧ 4095 < addr + n - 1 := by
  simp [outOfBounds, lastAddress]

theorem outOfBounds_false {addr n : Nat} : outOfBounds addr n = false ↔ n = 0 ∨ addr + n ≤ 4096 := by
  rw [← Bool.not_eq_true, outOfBounds_iff]; omega

/-- What a read in bounds gives. -/
theorem memRead_eq_ok {s : State} {addr n : Nat} {l : List Byte} :
    s.memRead addr n = .ok l ↔ outOfBounds addr n = false ∧ l = s.mem.readBytes addr n := by
  simp only [State.memRead]
  by_cases h : outOfBounds addr n = true <;> simp [h, eq_comm]

/-- What a read out of bounds raises. -/
theorem memRead_eq_error {s : State} {addr n : Nat} {f : Fault} :
    s.memRead addr n = .error f ↔ outOfBounds addr n = true ∧ f = .memoryBounds addr n := by
  simp only [State.memRead]
  by_cases h : outOfBounds addr n = true <;> simp [h, eq_comm]

/-- What a write in bounds does. -/
theorem memWrite_eq_ok {s t : State} {addr : Nat} {l : List Byte} :
    s.memWrite addr l = .ok t ↔
      outOfBounds addr l.length = false ∧ t = { s with mem := s.mem.writeBytes addr l } := by
  simp only [State.memWrite]
  by_cases h : outOfBounds addr l.length = true <;> simp [h, eq_comm]

/-- What a write out of bounds raises. -/
theorem memWrite_eq_error {s : State} {addr : Nat} {l : List Byte} {f : Fault} :
    s.memWrite addr l = .error f ↔
      outOfBounds addr l.length = true ∧ f = .memoryBounds addr l.length := by
  simp only [State.memWrite]
  by_cases h : outOfBounds addr l.length = true <;> simp [h, eq_comm]

/-! ## Flags and results -/

@[simp] theorem toNat_flagByte (b : Bool) : (flagByte b).toNat = if b then 1 else 0 := by
  cases b <;> rfl

@[simp] theorem toNat_addBytes (a b : Byte) : (addBytes a b).toNat = (a.toNat + b.toNat) % 256 := by
  simp [addBytes]

@[simp] theorem toNat_subBytes (a b : Byte) :
    (subBytes a b).toNat = (a.toNat + 256 - b.toNat) % 256 := by
  have ha := a.isLt
  have hb := b.isLt
  simp only [subBytes, BitVec.toNat_ofInt]
  omega

@[simp] theorem toNat_lowBitFlag (a : Byte) : (lowBitFlag a).toNat = a.toNat % 2 := by
  simp [lowBitFlag, Nat.and_one_is_mod]

@[simp] theorem toNat_highBitFlag (a : Byte) : (highBitFlag a).toNat = a.toNat / 128 := by
  have := a.isLt
  simp only [highBitFlag, BitVec.toNat_and, BitVec.toNat_ushiftRight, Nat.shiftRight_eq_div_pow]
  simp only [BitVec.ofNat_eq_ofNat, BitVec.toNat_ofNat, Nat.reducePow, Nat.reduceMod,
    Nat.and_one_is_mod]
  omega

@[simp] theorem toNat_shiftRightOne (a : Byte) : (shiftRightOne a).toNat = a.toNat / 2 := by
  simp [shiftRightOne, Nat.shiftRight_eq_div_pow]

@[simp] theorem toNat_shiftLeftOne (a : Byte) : (shiftLeftOne a).toNat = a.toNat * 2 % 256 := by
  simp [shiftLeftOne, Nat.shiftLeft_eq]

@[simp] theorem toNat_addressOf (nnn : Addr12) : (addressOf nnn).toNat = nnn.toNat := by
  have := nnn.isLt
  simp only [addressOf, BitVec.toNat_setWidth]
  omega

@[simp] theorem toNat_glyphAddress (b : Byte) : (glyphAddress b).toNat = b.toNat * 5 := by
  have := b.isLt
  simp only [glyphAddress, BitVec.toNat_ofNat]
  omega

theorem toNat_and_FFF (w : Word) : (w &&& 0xFFF).toNat = w.toNat % 4096 := by
  rw [BitVec.toNat_and]
  exact Nat.and_two_pow_sub_one_eq_mod w.toNat 12

/-! ## Keys -/

/-- When a key number is refused (44_keys_timers R150). -/
theorem keyPressed_eq_error {s : State} {k : Byte} {f : Fault} :
    s.keyPressed k = .error f ↔ 15 < k.toNat ∧ f = .badKeyIndex k := by
  simp only [State.keyPressed]
  split
  · simp [eq_comm]; omega
  · simp; omega

/-- What a key number gives (44_keys_timers R151). -/
theorem keyPressed_eq_ok {s : State} {k : Byte} {b : Bool} :
    s.keyPressed k = .ok b ↔ k.toNat ≤ 15 ∧ b = s.keys.getLsbD k.toNat := by
  simp only [State.keyPressed]
  split
  · simp; omega
  · simp [eq_comm]; omega

end Sys2Proof.Machine
end

