-- ==== Sys2Proof/Laws/Keys.lean ====
section
/-!
SUPPORT. The key choice: whatever the table of `KEY_CHOICE`, a member of the set is chosen, and without an
entry it is the lowest.
-/
namespace Sys2Proof.Machine

/-- The bits of the set of new keys (44_keys_timers R154). -/
theorem getLsbD_newKeys (s : State) (k : Nat) :
    s.newKeys.getLsbD k = (s.keys.getLsbD k && !s.prevKeys.getLsbD k) := by
  simp only [State.newKeys, BitVec.getLsbD_and, BitVec.getLsbD_not]
  by_cases h : k < 16
  · simp [h]
  · simp [h, BitVec.getLsbD_of_ge _ k (by omega : 16 ≤ k)]

/-- A set of keys is not empty exactly when some key is in it. -/
theorem keys_ne_zero {e : BitVec 16} : e ≠ 0 ↔ ∃ k, e.getLsbD k = true := by
  constructor
  · intro h
    refine Classical.byContradiction fun hn => h (BitVec.eq_of_getLsbD_eq fun i hi => ?_)
    have : e.getLsbD i = false := Bool.eq_false_iff.mpr fun hi => hn ⟨i, hi⟩
    simpa using this
  · rintro ⟨k, hk⟩ rfl
    simp at hk

/-- The first key of a list: a member of the set, and no earlier key of the list is one. -/
theorem firstKey_spec {e : BitVec 16} {n : Nat} (start : Nat) (hn : start + n = 16)
    (h : ∃ k, start ≤ k ∧ e.getLsbD k = true) :
    e.getLsbD (firstKey e (List.range' start n)).toNat = true ∧
      ∀ j, start ≤ j → e.getLsbD j = true → (firstKey e (List.range' start n)).toNat ≤ j := by
  induction n generalizing start with
  | zero =>
    obtain ⟨k, h1, h2⟩ := h
    simp [BitVec.getLsbD_of_ge e k (by omega)] at h2
  | succ n ih =>
    simp only [List.range'_succ, firstKey]
    have hs : (BitVec.ofNat 4 start).toNat = start := by simp; omega
    split
    · rename_i hk
      rw [hs]
      exact ⟨hk, fun j hj _ => hj⟩
    · rename_i hk
      have key : ∀ j, start ≤ j → e.getLsbD j = true → start + 1 ≤ j := by
        intro j hj hb
        rcases Nat.eq_or_lt_of_le hj with rfl | h
        · exact absurd hb hk
        · exact h
      obtain ⟨k, h1, h2⟩ := h
      obtain ⟨ha, hb⟩ := ih (start + 1) (by omega) ⟨k, key k h1 h2, h2⟩
      exact ⟨ha, fun j hj hbit => hb j (key j hj hbit) hbit⟩

/-- The lowest key of a non-empty set. -/
theorem lowestKey_spec {e : BitVec 16} (h : ∃ k, e.getLsbD k = true) :
    e.getLsbD (lowestKey e).toNat = true ∧ ∀ j, e.getLsbD j = true → (lowestKey e).toNat ≤ j := by
  obtain ⟨k, hk⟩ := h
  have := firstKey_spec (e := e) (n := 16) 0 (by omega) ⟨k, by omega, hk⟩
  exact ⟨this.1, fun j hj => this.2 j (by omega) hj⟩

/-- The chosen key is a member of the set (00_scope R7). -/
theorem chooseKey_mem {c : Config} {e : BitVec 16} (h : ∃ k, e.getLsbD k = true) :
    e.getLsbD (chooseKey c e).toNat = true := by
  simp only [chooseKey]
  split
  · split
    · assumption
    · exact (lowestKey_spec h).1
  · exact (lowestKey_spec h).1

/-- Without a table the chosen key is the lowest (00_scope R7). -/
theorem chooseKey_default {c : Config} {e : BitVec 16} (h : c.keyChoice = []) :
    chooseKey c e = lowestKey e := by
  simp [chooseKey, h, tableChoice]

/-- The entry of a choice table is the first one for the set. -/
theorem tableChoice_eq_lookup (e : BitVec 16) (t : List (BitVec 16 × Nibble)) :
    tableChoice e t = t.lookup e := by
  induction t with
  | nil => rfl
  | cons p t ih =>
    by_cases h : p.1 = e
    · simp [tableChoice, List.lookup, h]
    · have h' : (e == p.1) = false := by simpa using fun h' : e = p.1 => h h'.symm
      simp [tableChoice, List.lookup, h, h', ih]

/-- An entry that is a member of the set is the choice. -/
theorem chooseKey_of_lookup {c : Config} {e : BitVec 16} {j : Nibble}
    (h : c.keyChoice.lookup e = some j) (hj : e.getLsbD j.toNat = true) : chooseKey c e = j := by
  simp [chooseKey, tableChoice_eq_lookup, h, hj]

/-- Without an entry that is a member of the set, the choice is the lowest member. -/
theorem chooseKey_of_no_member {c : Config} {e : BitVec 16}
    (h : ∀ j, c.keyChoice.lookup e = some j → e.getLsbD j.toNat = false) :
    chooseKey c e = lowestKey e := by
  simp only [chooseKey, tableChoice_eq_lookup]
  cases hl : c.keyChoice.lookup e with
  | none => rfl
  | some j => simp [h j hl]

end Sys2Proof.Machine
end

