-- ==== Sys2Proof/Laws/PerInstr.lean ====
section
/-!
SUPPORT. Family RowPattern: the word of an instruction matches its row of spec/opcode_table.json. One
lemma per constructor.
-/
namespace Sys2Proof.Laws.RowPattern

/-- The (match, mask) pair of an instruction's row, read off spec/opcode_table.json. -/
def patternOf : Instr → Word × Word
  | .cls => (0x00E0, 0xFFFF)
  | .ret => (0x00EE, 0xFFFF)
  | .jp _ => (0x1000, 0xF000)
  | .call _ => (0x2000, 0xF000)
  | .seImm _ _ => (0x3000, 0xF000)
  | .sneImm _ _ => (0x4000, 0xF000)
  | .seReg _ _ => (0x5000, 0xF00F)
  | .ldImm _ _ => (0x6000, 0xF000)
  | .addImm _ _ => (0x7000, 0xF000)
  | .ldReg _ _ => (0x8000, 0xF00F)
  | .orReg _ _ => (0x8001, 0xF00F)
  | .andReg _ _ => (0x8002, 0xF00F)
  | .xorReg _ _ => (0x8003, 0xF00F)
  | .addReg _ _ => (0x8004, 0xF00F)
  | .subReg _ _ => (0x8005, 0xF00F)
  | .shr _ _ => (0x8006, 0xF00F)
  | .subnReg _ _ => (0x8007, 0xF00F)
  | .shl _ _ => (0x800E, 0xF00F)
  | .sneReg _ _ => (0x9000, 0xF00F)
  | .ldI _ => (0xA000, 0xF000)
  | .jpV0 _ => (0xB000, 0xF000)
  | .rnd _ _ => (0xC000, 0xF000)
  | .drw _ _ _ => (0xD000, 0xF000)
  | .skp _ => (0xE09E, 0xF0FF)
  | .sknp _ => (0xE0A1, 0xF0FF)
  | .ldVxDt _ => (0xF007, 0xF0FF)
  | .ldVxK _ => (0xF00A, 0xF0FF)
  | .ldDtVx _ => (0xF015, 0xF0FF)
  | .ldStVx _ => (0xF018, 0xF0FF)
  | .addI _ => (0xF01E, 0xF0FF)
  | .ldF _ => (0xF029, 0xF0FF)
  | .ldB _ => (0xF033, 0xF0FF)
  | .stRegs _ => (0xF055, 0xF0FF)
  | .ldRegs _ => (0xF065, 0xF0FF)
  | .sys _ => (0x0000, 0xF000)
  | .dw _ => (0x0000, 0x0000)

/-- The word of the instruction matches its row. -/
def Statement (i : Instr) : Prop := encode i &&& (patternOf i).2 = (patternOf i).1

theorem cls : Statement .cls := rfl
theorem ret : Statement .ret := rfl
theorem jp (nnn : Addr12) : Statement (.jp nnn) := wordA_mask _ nnn
theorem call (nnn : Addr12) : Statement (.call nnn) := wordA_mask _ nnn
theorem seImm (x : Nibble) (kk : Byte) : Statement (.seImm x kk) := wordXK_family _ x kk
theorem sneImm (x : Nibble) (kk : Byte) : Statement (.sneImm x kk) := wordXK_family _ x kk
theorem seReg (x y : Nibble) : Statement (.seReg x y) := wordXYN_mask _ x y _
theorem ldImm (x : Nibble) (kk : Byte) : Statement (.ldImm x kk) := wordXK_family _ x kk
theorem addImm (x : Nibble) (kk : Byte) : Statement (.addImm x kk) := wordXK_family _ x kk
theorem ldReg (x y : Nibble) : Statement (.ldReg x y) := wordXYN_mask _ x y _
theorem orReg (x y : Nibble) : Statement (.orReg x y) := wordXYN_mask _ x y _
theorem andReg (x y : Nibble) : Statement (.andReg x y) := wordXYN_mask _ x y _
theorem xorReg (x y : Nibble) : Statement (.xorReg x y) := wordXYN_mask _ x y _
theorem addReg (x y : Nibble) : Statement (.addReg x y) := wordXYN_mask _ x y _
theorem subReg (x y : Nibble) : Statement (.subReg x y) := wordXYN_mask _ x y _
theorem shr (x y : Nibble) : Statement (.shr x y) := wordXYN_mask _ x y _
theorem subnReg (x y : Nibble) : Statement (.subnReg x y) := wordXYN_mask _ x y _
theorem shl (x y : Nibble) : Statement (.shl x y) := wordXYN_mask _ x y _
theorem sneReg (x y : Nibble) : Statement (.sneReg x y) := wordXYN_mask _ x y _
theorem ldI (nnn : Addr12) : Statement (.ldI nnn) := wordA_mask _ nnn
theorem jpV0 (nnn : Addr12) : Statement (.jpV0 nnn) := wordA_mask _ nnn
theorem rnd (x : Nibble) (kk : Byte) : Statement (.rnd x kk) := wordXK_family _ x kk
theorem drw (x y n : Nibble) : Statement (.drw x y n) := wordXYN_family _ x y n
theorem skp (x : Nibble) : Statement (.skp x) := wordXK_mask _ x _
theorem sknp (x : Nibble) : Statement (.sknp x) := wordXK_mask _ x _
theorem ldVxDt (x : Nibble) : Statement (.ldVxDt x) := wordXK_mask _ x _
theorem ldVxK (x : Nibble) : Statement (.ldVxK x) := wordXK_mask _ x _
theorem ldDtVx (x : Nibble) : Statement (.ldDtVx x) := wordXK_mask _ x _
theorem ldStVx (x : Nibble) : Statement (.ldStVx x) := wordXK_mask _ x _
theorem addI (x : Nibble) : Statement (.addI x) := wordXK_mask _ x _
theorem ldF (x : Nibble) : Statement (.ldF x) := wordXK_mask _ x _
theorem ldB (x : Nibble) : Statement (.ldB x) := wordXK_mask _ x _
theorem stRegs (x : Nibble) : Statement (.stRegs x) := wordXK_mask _ x _
theorem ldRegs (x : Nibble) : Statement (.ldRegs x) := wordXK_mask _ x _
theorem sys (nnn : Addr12) : Statement (.sys nnn) := wordA_mask _ nnn
theorem dw (word : Word) : Statement (.dw word) := BitVec.and_zero

end Sys2Proof.Laws.RowPattern
end

