-- ==== Sys2Proof/Laws/Step.lean ====
section
/-!
SUPPORT. What the end of a cycle leaves alone, and what one step can do, said once.
-/
namespace Sys2Proof.Machine

/-! ## The end of a cycle touches the timers, the divider, `frameReady` and the output ports alone -/

section
variable (s : State)

@[simp] theorem State.divide_frameReady : s.divide.frameReady = s.frameReady := by
  unfold State.divide; split <;> rfl
@[simp] theorem State.divide_fb : s.divide.fb = s.fb := by
  unfold State.divide; split <;> rfl
@[simp] theorem State.divide_frame : s.divide.out.frame = s.out.frame := by
  unfold State.divide; split <;> rfl

/-- Everything a cycle's end leaves alone, as one equation. -/
theorem State.endCycle_eq : s.endCycle = { s with
    dt := s.endCycle.dt, st := s.endCycle.st, div := s.endCycle.div
    frameReady := s.endCycle.frameReady, out := s.endCycle.out } := by
  unfold State.endCycle State.present State.divide
  split <;> split <;> try split
  all_goals rfl

@[simp] theorem State.endCycle_mem : s.endCycle.mem = s.mem := by rw [State.endCycle_eq]
@[simp] theorem State.endCycle_v : s.endCycle.v = s.v := by rw [State.endCycle_eq]
@[simp] theorem State.endCycle_i : s.endCycle.i = s.i := by rw [State.endCycle_eq]
@[simp] theorem State.endCycle_pc : s.endCycle.pc = s.pc := by rw [State.endCycle_eq]
@[simp] theorem State.endCycle_stack : s.endCycle.stack = s.stack := by rw [State.endCycle_eq]
@[simp] theorem State.endCycle_sp : s.endCycle.sp = s.sp := by rw [State.endCycle_eq]
@[simp] theorem State.endCycle_fb : s.endCycle.fb = s.fb := by rw [State.endCycle_eq]
@[simp] theorem State.endCycle_keys : s.endCycle.keys = s.keys := by rw [State.endCycle_eq]
@[simp] theorem State.endCycle_prevKeys : s.endCycle.prevKeys = s.prevKeys := by
  rw [State.endCycle_eq]
@[simp] theorem State.endCycle_zc : s.endCycle.zc = s.zc := by rw [State.endCycle_eq]
@[simp] theorem State.endCycle_wait : s.endCycle.wait = s.wait := by rw [State.endCycle_eq]
@[simp] theorem State.endCycle_status : s.endCycle.status = s.status := by rw [State.endCycle_eq]
@[simp] theorem State.endCycle_config : s.endCycle.config = s.config := by rw [State.endCycle_eq]
@[simp] theorem State.endCycle_rnd : s.endCycle.rnd = s.rnd := by rw [State.endCycle_eq]
@[simp] theorem State.endCycle_inputs : s.endCycle.inputs = s.inputs := by rw [State.endCycle_eq]
@[simp] theorem State.endCycle_cycle : s.endCycle.cycle = s.cycle := by rw [State.endCycle_eq]
@[simp] theorem getV_endCycle (y : Nibble) : s.endCycle.getV y = s.getV y := by
  simp [State.getV]
@[simp] theorem State.endCycle_diag : s.endCycle.out.diag = s.out.diag := by
  unfold State.endCycle State.present State.divide
  split <;> split <;> try split
  all_goals rfl
@[simp] theorem State.endCycle_fetchWord : s.endCycle.fetchWord = s.fetchWord := by
  simp [State.fetchWord]

/-- A timer byte after a tick (60_exceptions R185). -/
theorem toNat_ticked (b : Byte) : (if b = 0 then 0 else b - 1).toNat = b.toNat - 1 := by
  split
  · subst_vars; rfl
  · have h : b.toNat ≠ 0 := fun h => ‹¬b = 0› (BitVec.eq_of_toNat_eq h)
    have h1 : (1 : Byte).toNat = 1 := rfl
    have := b.isLt
    rw [BitVec.toNat_sub, h1]; omega

/-- Presenting touches neither the timers, the divider nor the beep. -/
theorem endCycle_timers (s : State) : s.endCycle.dt = s.divide.dt ∧ s.endCycle.st = s.divide.st ∧
    s.endCycle.div = s.divide.div ∧ s.endCycle.out.beep = s.divide.out.beep := by
  unfold State.endCycle State.present
  split <;> try split
  all_goals exact ⟨rfl, rfl, rfl, rfl⟩

/-- The divider step of the ninth cycle (60_exceptions R186). -/
theorem divide_ticking {s : State} (h : s.div = 8) : s.divide = { s with div := 0 }.tick := by
  have ht : s.ticks = true := by rw [State.ticks, h]; rfl
  rw [State.divide, if_pos ht]

/-- The divider step of any other cycle. -/
theorem divide_counting {s : State} (h : s.div ≠ 8) : s.divide = { s with div := s.div + 1 } := by
  have ht : ¬s.ticks = true := by simpa [State.ticks] using h
  rw [State.divide, if_neg ht]

/-- The fetched word depends on memory and `pc` alone. -/
theorem fetchWord_congr {s t : State} (hm : t.mem = s.mem) (hp : t.pc = s.pc) :
    t.fetchWord = s.fetchWord := by
  simp [State.fetchWord, hm, hp]

end

/-! ## One step -/

/-- The states a step can answer (60_exceptions R170), with `latched` the state after the inputs were taken
and the keys latched. -/
inductive StepCase (s : State) : Result → Prop
  | ended (h : s.status.terminal = true) : StepCase s (.next { s with out := Outputs.quiet })
  | stopped (h : s.status = .running) (hs : s.nextInput.stop = true) :
      StepCase s (.next s.beginCycle.stopRun)
  | waited (h : s.status = .running) (hs : s.nextInput.stop = false) (hw : s.wait.active = true) :
      StepCase s (.next (s.beginCycle.latch s.nextInput).checkKeyWait.endCycle)
  | noWord (h : s.status = .running) (hs : s.nextInput.stop = false) (hw : s.wait.active = false)
      (hb : 4095 < s.pc.toNat + 1) :
      StepCase s (.next ((s.beginCycle.latch s.nextInput).takeFault
        (.memoryBounds s.pc.toNat 2) none))
  | halted (h : s.Runs) (hz : s.atExecute.zc = 10) : StepCase s (.next s.atExecute.halt)
  | ran (h : s.Runs) (hz : s.atExecute.zc ≠ 10) {t : State}
      (he : exec (decodeWord s.fetchWord) s.atExecute = .next t) : StepCase s (.next t.endCycle)
  | faulted (h : s.Runs) (hz : s.atExecute.zc ≠ 10) {f : Fault}
      (he : exec (decodeWord s.fetchWord) s.atExecute = .fault f) :
      StepCase s (.next (s.atExecute.takeFault f (some s.fetchWord)))
  | refused (h : s.Runs) (hz : s.atExecute.zc ≠ 10) {r : Refusal}
      (he : exec (decodeWord s.fetchWord) s.atExecute = .refused r) : StepCase s (.refused r)

theorem terminal_false {x : Status} : x.terminal = false ↔ x = .running := by
  cases x <;> simp [Status.terminal]

/-- What the cycle does with the fetched word. -/
theorem runFetched_case {s : State} (hr : s.Runs) :
    StepCase s (runFetched (s.beginCycle.latch s.nextInput).fetchWord
      (s.beginCycle.latch s.nextInput)) := by
  change StepCase s (if s.atExecute.zc = 10 then .next s.atExecute.halt
    else runInstruction s.fetchWord s.atExecute)
  by_cases hz : s.atExecute.zc = 10
  · rw [if_pos hz]; exact .halted hr hz
  · rw [if_neg hz]
    simp only [runInstruction]
    split
    · exact .ran hr hz ‹_›
    · exact .faulted hr hz ‹_›
    · exact .refused hr hz ‹_›

/-- What one step can do. -/
theorem step_cases (s : State) : StepCase s (step s) := by
  simp only [step, cycle]
  cases ht : s.status.terminal with
  | true => exact .ended ht
  | false =>
    rw [terminal_false] at ht
    cases hs : s.nextInput.stop with
    | true => exact .stopped ht hs
    | false =>
      simp only [runCycle, Bool.false_eq_true, ite_false]
      by_cases hw : (s.beginCycle.latch s.nextInput).wait.active = true
      · rw [if_pos hw]; exact .waited ht hs hw
      · rw [if_neg hw]
        have hw' : s.wait.active = false := Bool.eq_false_iff.mpr hw
        simp only [fetchAndRun]
        by_cases hb : outOfBounds (s.beginCycle.latch s.nextInput).pc.toNat 2 = true
        · rw [if_pos hb]
          rw [outOfBounds_iff] at hb
          exact .noWord ht hs hw' (Nat.lt_of_lt_of_eq hb.2 rfl)
        · rw [if_neg hb]
          have hle : s.pc.toNat + 1 ≤ 4095 :=
            Nat.not_lt.mp fun h => hb (outOfBounds_iff.mpr ⟨by decide, h⟩)
          have hr : s.Runs := ⟨ht, hs, hw', hle⟩
          exact runFetched_case hr

section
variable (s : State)
@[simp] theorem State.atExecute_mem : s.atExecute.mem = s.mem := by rfl
@[simp] theorem State.atExecute_v : s.atExecute.v = s.v := by rfl
@[simp] theorem State.atExecute_i : s.atExecute.i = s.i := by rfl
@[simp] theorem State.atExecute_pc : s.atExecute.pc = s.pc := by rfl
@[simp] theorem State.atExecute_stack : s.atExecute.stack = s.stack := by rfl
@[simp] theorem State.atExecute_sp : s.atExecute.sp = s.sp := by rfl
@[simp] theorem State.atExecute_dt : s.atExecute.dt = s.dt := by rfl
@[simp] theorem State.atExecute_st : s.atExecute.st = s.st := by rfl
@[simp] theorem State.atExecute_fb : s.atExecute.fb = s.fb := by rfl
@[simp] theorem State.atExecute_keys : s.atExecute.keys = s.nextInput.keys := by rfl
@[simp] theorem State.atExecute_prevKeys : s.atExecute.prevKeys = s.keys := by rfl
@[simp] theorem State.atExecute_rnd : s.atExecute.rnd = s.nextInput.rnd := by rfl
@[simp] theorem State.atExecute_frameReady : s.atExecute.frameReady = s.frameReady := by rfl
@[simp] theorem State.atExecute_zc :
    s.atExecute.zc = if s.fetchWord = 0 then s.zc + 1 else 0 := by rfl
@[simp] theorem State.atExecute_div : s.atExecute.div = s.div := by rfl
@[simp] theorem State.atExecute_wait : s.atExecute.wait = s.wait := by rfl
@[simp] theorem State.atExecute_status : s.atExecute.status = s.status := by rfl
@[simp] theorem State.atExecute_config : s.atExecute.config = s.config := by rfl
@[simp] theorem State.atExecute_out : s.atExecute.out = Outputs.quiet := by rfl
@[simp] theorem State.atExecute_inputs : s.atExecute.inputs = s.inputs.tail := by rfl
@[simp] theorem State.atExecute_cycle : s.atExecute.cycle = s.cycle + 1 := by rfl
end

/-! ## One step, forward: what it answers in each case -/

theorem step_terminal {s : State} (h : s.status ≠ .running) :
    step s = .next { s with out := Outputs.quiet } := by
  have ht : s.status.terminal = true :=
    (Bool.eq_false_or_eq_true _).resolve_right fun h' => h (terminal_false.mp h')
  simp only [step, cycle, ht, ite_true]

theorem step_running {s : State} (h : s.status = .running) (hs : s.nextInput.stop = false) :
    step s = runCycle s.nextInput s.beginCycle := by
  simp [step, cycle, terminal_false.mpr h, hs]

theorem step_stopped {s : State} (h : s.status = .running) (hs : s.nextInput.stop = true) :
    step s = .next s.beginCycle.stopRun := by
  simp [step, cycle, terminal_false.mpr h, hs]

theorem step_waited {s : State} (h : s.status = .running) (hs : s.nextInput.stop = false)
    (hw : s.wait.active = true) :
    step s = .next (s.beginCycle.latch s.nextInput).checkKeyWait.endCycle := by
  rw [step_running h hs, runCycle]; exact if_pos hw

theorem step_noWait {s : State} (h : s.status = .running) (hs : s.nextInput.stop = false)
    (hw : s.wait.active = false) : step s = fetchAndRun (s.beginCycle.latch s.nextInput) := by
  rw [step_running h hs, runCycle]; exact if_neg (Bool.not_eq_true _ ▸ hw)

theorem step_noWord {s : State} (h : s.status = .running) (hs : s.nextInput.stop = false)
    (hw : s.wait.active = false) (hb : 4095 < s.pc.toNat + 1) :
    step s = .next ((s.beginCycle.latch s.nextInput).takeFault (.memoryBounds s.pc.toNat 2) none) := by
  rw [step_noWait h hs hw, fetchAndRun]
  exact if_pos (outOfBounds_iff.mpr ⟨by decide, hb⟩)

theorem step_runs {s : State} (h : s.Runs) : step s =
    if s.atExecute.zc = 10 then .next s.atExecute.halt else runInstruction s.fetchWord s.atExecute := by
  rw [step_noWait h.running h.noStop h.noWait, fetchAndRun]
  have hb : ¬outOfBounds s.pc.toNat 2 = true := fun hb =>
    absurd h.inBounds (Nat.not_le.mpr (outOfBounds_iff.mp hb).2)
  exact if_neg hb

theorem step_halted {s : State} (h : s.Runs) (hz : s.atExecute.zc = 10) :
    step s = .next s.atExecute.halt := by rw [step_runs h, if_pos hz]

theorem step_executes {s : State} (h : s.Runs) (hz : s.atExecute.zc ≠ 10) :
    step s = runInstruction s.fetchWord s.atExecute := by rw [step_runs h, if_neg hz]

/-! ## The state after the latch -/

/-- The scheduler's first operations are the update that `afterLatch` writes out. -/
theorem latch_beginCycle (s : State) : s.beginCycle.latch s.nextInput = s.afterLatch := by rfl

/-- Counting the fetched word gives the state in which the instruction executes. -/
theorem countFetch_afterLatch (s : State) : s.afterLatch.countFetch s.fetchWord = s.atExecute := by rfl

/-- The keys new in the cycle after `s`. -/
theorem newKeys_afterLatch (s : State) : s.afterLatch.newKeys = s.nextInput.keys &&& ~~~s.keys := by rfl

/-- The completion check without a new key (44_keys_timers R154). -/
theorem checkKeyWait_idle {s : State} (h : s.newKeys = 0) : s.checkKeyWait = s := by
  rw [State.checkKeyWait, if_pos h]

/-- The completion check with a new key (44_keys_timers R154). -/
theorem checkKeyWait_done {s : State} (h : s.newKeys ≠ 0) : s.checkKeyWait = { s with
    v := s.v.set s.wait.reg.toNat ((chooseKey s.config s.newKeys).setWidth 8) s.wait.reg.isLt
    wait := ⟨false, s.wait.reg⟩, pc := s.pc + 2 } := by
  rw [State.checkKeyWait, if_neg h]; rfl

/-- The key-wait check touches V registers, `WAIT` and `pc` alone. -/
theorem checkKeyWait_eq (s : State) : s.checkKeyWait = { s with
    v := s.checkKeyWait.v, wait := s.checkKeyWait.wait, pc := s.checkKeyWait.pc } := by
  unfold State.checkKeyWait; split <;> rfl

end Sys2Proof.Machine
end

