-- ==== Sys2Proof/Tests/Slice0.lean ====
section
/-!
SUPPORT. The model's own tests: words written out from the encodings of spec/30_encoding.md, ill-formed
terms, single steps whose expected results are the vectors of spec/95_test_vectors.md (named in each
comment) or the examples of the instruction rules, and for every obligation with hypotheses a concrete
input that meets them.
-/
namespace Sys2Proof.Tests
open Sys2Proof Sys2Proof.Machine

/-! ## Decoding: one word of every row, bit by bit (30_encoding R72, R77) -/

theorem test_decode_plain :
    decodeWord 0b0000000011100000 = .cls ∧ decodeWord 0b0000000011101110 = .ret ∧
    decodeWord 0b0001001000110100 = .jp 0x234 ∧ decodeWord 0b0010001100000000 = .call 0x300 ∧
    decodeWord 0b0011001101000010 = .seImm 3 0x42 ∧ decodeWord 0b0100000000000001 = .sneImm 0 0x01 ∧
    decodeWord 0b0101000100100000 = .seReg 1 2 ∧ decodeWord 0b0110101000101111 = .ldImm 0xA 0x2F ∧
    decodeWord 0b0111010100000011 = .addImm 5 0x03 := by decide

theorem test_decode_alu :
    decodeWord 0b1000000100100000 = .ldReg 1 2 ∧ decodeWord 0b1000000100100001 = .orReg 1 2 ∧
    decodeWord 0b1000000100100010 = .andReg 1 2 ∧ decodeWord 0b1000000100100011 = .xorReg 1 2 ∧
    decodeWord 0b1000000100100100 = .addReg 1 2 ∧ decodeWord 0b1000000100100101 = .subReg 1 2 ∧
    decodeWord 0b1000001101110110 = .shr 3 7 ∧ decodeWord 0b1000000100100111 = .subnReg 1 2 ∧
    decodeWord 0b1000001100001110 = .shl 3 0 := by decide

theorem test_decode_upper :
    decodeWord 0b1001000100100000 = .sneReg 1 2 ∧ decodeWord 0b1010001011110000 = .ldI 0x2F0 ∧
    decodeWord 0b1011001100000000 = .jpV0 0x300 ∧ decodeWord 0b1100000000001111 = .rnd 0 0x0F ∧
    decodeWord 0b1101000000010101 = .drw 0 1 5 := by decide

theorem test_decode_sub :
    decodeWord 0b1110000110011110 = .skp 1 ∧ decodeWord 0b1110000110100001 = .sknp 1 ∧
    decodeWord 0b1111001100000111 = .ldVxDt 3 ∧ decodeWord 0b1111010100001010 = .ldVxK 5 ∧
    decodeWord 0b1111000000010101 = .ldDtVx 0 ∧ decodeWord 0b1111000000011000 = .ldStVx 0 ∧
    decodeWord 0b1111001000011110 = .addI 2 ∧ decodeWord 0b1111000100101001 = .ldF 1 ∧
    decodeWord 0b1111011100110011 = .ldB 7 ∧ decodeWord 0b1111001001010101 = .stRegs 2 ∧
    decodeWord 0b1111001001100101 = .ldRegs 2 := by decide

/-- V-U1, V-U2, V-C14, V-A33. -/
theorem test_decode_unrecognized :
    decodeWord 0b0000000100100011 = .sys 0x123 ∧ decodeWord 0b0000000000000000 = .sys 0 ∧
    decodeWord 0b0101000100100001 = .dw 0x5121 ∧ decodeWord 0b1000000100101000 = .dw 0x8128 ∧
    decodeWord 0b1000000100101111 = .dw 0x812F ∧ decodeWord 0b1001000100100001 = .dw 0x9121 ∧
    decodeWord 0b1110000011111111 = .dw 0xE0FF ∧ decodeWord 0b1111000000000001 = .dw 0xF001 := by decide

/-- Big-endian bytes (20_memory R53); a word needs two of them (30_encoding R70). -/
theorem test_decode_bytes :
    decode [0x6A, 0x2F, 0x12] = .ok (.ldImm 0xA 0x2F, [0x12]) ∧
    decode [0x6A] = .error .truncated ∧ decode [] = .error .truncated ∧
    decodeTableWord 16 0x6A2F = some (.ldImm 0xA 0x2F) ∧ decodeTableWord 24 0x6A2F = none :=
  ⟨rfl, rfl, rfl, by decide, by decide⟩

/-- Every row matches its pattern with all operand bits 0 and with all of them 1 (30_encoding R75). -/
theorem test_rows_match_at_operand_bounds :
    ∀ r ∈ instructionRows, r.matches r.pattern = true ∧ r.matches (r.pattern ||| ~~~r.mask) = true := by
  decide

/-! ## Ill-formed terms (30_encoding R76, R78) -/

theorem test_wf_refuses_priority_words :
    Instr.wf (.sys 0x0E0) = false ∧ Instr.wf (.sys 0x0EE) = false := by decide

theorem test_wf_refuses_words_of_instructions :
    Instr.wf (.dw 0x6000) = false ∧ Instr.wf (.dw 0x5120) = false ∧ Instr.wf (.dw 0x8126) = false ∧
    Instr.wf (.dw 0x9120) = false ∧ Instr.wf (.dw 0xE09E) = false ∧ Instr.wf (.dw 0xE1A1) = false ∧
    Instr.wf (.dw 0xF165) = false ∧ Instr.wf (.dw 0x0000) = false := by decide

/-! ## Single steps -/

/-- The state after an instruction, if there is one. -/
def after (i : Instr) (s : State) : Option State :=
  match exec i s with
  | .next t => some t
  | .fault _ => none
  | .refused _ => none

/-- The fault an instruction raises, if it does. -/
def raised (i : Instr) (s : State) : Option Fault :=
  match exec i s with
  | .fault f => some f
  | .next _ => none
  | .refused _ => none

/-- What one step answers, if a state. -/
def stepped (s : State) : Option State :=
  match step s with
  | .next t => some t
  | .fault _ => none
  | .refused _ => none

/-- The reset state with these registers. -/
def regs (l : List (Nibble × Byte)) : State := l.foldl (fun s p => s.setV p.1 p.2) State.reset

/-- The state after a load with the next cycle's inputs listed. -/
def fed (stop : Bool) (keys : BitVec 16) : State := { State.reset with inputs := [⟨stop, keys, 0xA7⟩] }

/-- `MEM[a]` up holding these bytes. -/
def poke (s : State) (a : Nat) (l : List Byte) : State := { s with mem := s.mem.writeBytes a l }

/-- `V[1]`, VF and `pc`. -/
def view1 (t : State) : Byte × Byte × Word := (t.getV 1, t.getV 15, t.pc)

/-! ### Display -/

/-- V-D1. -/
theorem test_cls : (after .cls { State.reset with fb := Vector.replicate 32 0xFF }).map
    (fun t => (t.fb, t.frameReady, t.pc)) = some (Vector.replicate 32 0, true, 0x202) := by decide

/-- V-D2: the glyph of 0, read from rows 0 to 4 with column 0 at bit 0. -/
theorem test_drw_glyph : (after (.drw 0 1 5) State.reset).map
    (fun t => (t.fb.toList.take 6, t.getV 15, t.frameReady, t.i, t.pc)) =
    some ([0b1111, 0b1001, 0b1001, 0b1001, 0b1111, 0], 0, true, 0, 0x202) := by decide

/-- V-D4 (clipped at the right edge, no wrap) and V-D9 (past the last byte). -/
theorem test_drw_edges :
    (after (.drw 0 1 1) (poke { regs [(0, 62)] with i := 0x300 } 0x300 [0xFF])).map
      (fun t => (t.fb.toList.take 2, t.getV 15)) = some ([0xC000000000000000, 0], 0) ∧
    raised (.drw 0 1 2) { State.reset with i := 0xFFF } = some (.memoryBounds 0xFFF 2) := by decide

/-! ### Control flow -/

/-- V-C6; a target of 0xFFF is no fault of the jump (V-C7). -/
theorem test_jp : (after (.jp 0x234) State.reset).map (·.pc) = some 0x234 ∧
    (after (.jp 0xFFF) State.reset).map (·.pc) = some 0xFFF := by decide

/-- V-C5. -/
theorem test_call : (after (.call 0x300) { State.reset with sp := 15 }).map
    (fun t => (t.stack.toList.drop 14, t.sp, t.pc)) = some ([0, 0x200], 16, 0x300) := by decide

/-- V-C4. -/
theorem test_call_overflow :
    raised (.call 0x300) { State.reset with sp := 16 } = some .stackOverflow := by decide

/-- V-C2. -/
theorem test_ret : (after .ret { State.reset with
      sp := 1, stack := State.reset.stack.set 0 0x202, pc := 0x300 }).map
    (fun t => (t.stack.toList.take 1, t.sp, t.pc)) = some ([0x202], 0, 0x204) := by decide

/-- V-C3. -/
theorem test_ret_underflow : raised .ret State.reset = some .stackUnderflow := by decide

/-- V-C9. -/
theorem test_seImm : (after (.seImm 3 0x42) (regs [(3, 0x42)])).map (·.pc) = some 0x204 ∧
    (after (.seImm 3 0x41) (regs [(3, 0x42)])).map (·.pc) = some 0x202 := by decide

/-- V-C10. -/
theorem test_sneImm : (after (.sneImm 3 0x42) (regs [(3, 0x42)])).map (·.pc) = some 0x202 ∧
    (after (.sneImm 3 0x41) (regs [(3, 0x42)])).map (·.pc) = some 0x204 := by decide

/-- V-C11, V-C12. -/
theorem test_seReg : (after (.seReg 1 2) (regs [(1, 7), (2, 7)])).map (·.pc) = some 0x204 ∧
    (after (.seReg 1 2) (regs [(1, 7), (2, 8)])).map (·.pc) = some 0x202 := by decide

/-- V-C11, V-C12. -/
theorem test_sneReg : (after (.sneReg 1 2) (regs [(1, 7), (2, 7)])).map (·.pc) = some 0x202 ∧
    (after (.sneReg 1 2) (regs [(1, 7), (2, 8)])).map (·.pc) = some 0x204 := by decide

/-- V-C16. -/
theorem test_jpV0 : (after (.jpV0 0xFFF) (regs [(0, 0xFF)])).map (·.pc) = some 0x10FE := by decide

/-! ### ALU and registers -/

/-- V-A1. -/
theorem test_ldImm : (after (.ldImm 0xA 0x2F) (regs [(15, 7)])).map
    (fun t => (t.getV 0xA, t.getV 15, t.pc)) = some (0x2F, 7, 0x202) := by decide

/-- V-A2, V-A4. -/
theorem test_addImm : (after (.addImm 5 3) (regs [(5, 0xFE), (15, 7)])).map
      (fun t => (t.getV 5, t.getV 15)) = some (0x01, 7) ∧
    (after (.addImm 15 0xF5) (regs [(15, 0x10)])).map (·.getV 15) = some 0x05 := by decide

/-- V-A5. -/
theorem test_ldReg : (after (.ldReg 1 2) (regs [(2, 9)])).map view1 = some (9, 0, 0x202) := by decide

/-- V-A6. -/
theorem test_orReg : (after (.orReg 1 2) (regs [(1, 0xF0), (2, 0x0F), (15, 5)])).map view1 =
    some (0xFF, 5, 0x202) := by decide

/-- The example of R124. -/
theorem test_andReg : (after (.andReg 1 2) (regs [(1, 0xF0), (2, 0x3C), (15, 5)])).map view1 =
    some (0x30, 5, 0x202) := by decide

/-- The example of R125. -/
theorem test_xorReg : (after (.xorReg 1 2) (regs [(1, 0xF0), (2, 0x3C), (15, 5)])).map view1 =
    some (0xCC, 5, 0x202) := by decide

/-- V-A9. -/
theorem test_addReg : (after (.addReg 1 2) (regs [(1, 0x80), (2, 0x80)])).map view1 =
    some (0x00, 1, 0x202) := by decide

/-- V-A12, V-A13. -/
theorem test_addReg_flag_operand :
    (after (.addReg 15 2) (regs [(15, 0x10), (2, 0xF5)])).map (·.getV 15) = some 0x05 ∧
    (after (.addReg 1 15) (regs [(1, 0xF0), (15, 0x20)])).map view1 = some (0x10, 1, 0x202) := by decide

/-- V-A15, V-A16. -/
theorem test_subReg : (after (.subReg 1 2) (regs [(1, 3), (2, 5)])).map view1 = some (0xFE, 0, 0x202) ∧
    (after (.subReg 1 2) (regs [(1, 5), (2, 5)])).map view1 = some (0, 1, 0x202) := by decide

/-- V-A17, V-A18, V-A19. -/
theorem test_subReg_flag_operand :
    (after (.subReg 15 2) (regs [(15, 5), (2, 3)])).map (·.getV 15) = some 0xFE ∧
    (after (.subReg 1 15) (regs [(1, 5), (15, 3)])).map view1 = some (4, 1, 0x202) ∧
    (after (.subReg 15 15) (regs [(15, 0x77)])).map (·.getV 15) = some 0 := by decide

/-- V-A21. -/
theorem test_shr : (after (.shr 3 7) (regs [(3, 0x80), (7, 1)])).map
    (fun t => (t.getV 3, t.getV 15, t.getV 7)) = some (0x40, 0, 1) := by decide

/-- V-A20, V-A22. -/
theorem test_shr_flag : (after (.shr 3 0) (regs [(3, 5)])).map
      (fun t => (t.getV 3, t.getV 15)) = some (2, 1) ∧
    (after (.shr 15 15) (regs [(15, 3)])).map (·.getV 15) = some 0 := by decide

/-- V-A23, V-A24, V-A25. -/
theorem test_subnReg : (after (.subnReg 1 2) (regs [(1, 1), (2, 2)])).map view1 = some (1, 0, 0x202) ∧
    (after (.subnReg 1 2) (regs [(1, 2), (2, 1)])).map view1 = some (0xFF, 1, 0x202) ∧
    (after (.subnReg 1 2) (regs [(1, 5), (2, 5)])).map view1 = some (0, 0, 0x202) := by decide

/-- V-A27, V-A28. -/
theorem test_subnReg_flag_operand :
    (after (.subnReg 15 2) (regs [(15, 5), (2, 3)])).map (·.getV 15) = some 2 ∧
    (after (.subnReg 1 15) (regs [(1, 5), (15, 3)])).map view1 = some (0xFC, 1, 0x202) := by decide

/-- V-A29, V-A30. -/
theorem test_shl : (after (.shl 3 0) (regs [(3, 0x81)])).map
      (fun t => (t.getV 3, t.getV 15)) = some (2, 1) ∧
    (after (.shl 3 0) (regs [(3, 0x40)])).map (fun t => (t.getV 3, t.getV 15)) = some (0x80, 0) := by decide

/-- V-A31. -/
theorem test_shl_flag_operand : (after (.shl 15 15) (regs [(15, 0x80)])).map (·.getV 15) = some 2 ∧
    (after (.shl 15 15) (regs [(15, 1)])).map (·.getV 15) = some 0 := by decide

/-- V-A32, one whole step: the byte is the input of the cycle. -/
theorem test_rnd : (stepped ((fed false 0).withFetchWord 16 0xC00F)).map (·.getV 0) = some 0x07 := by
  decide

/-! ### Index register and memory -/

/-- V-M1. -/
theorem test_ldI : (after (.ldI 0x2F0) State.reset).map (fun t => (t.i, t.pc)) = some (0x2F0, 0x202) := by
  decide

/-- V-M2, V-M6. -/
theorem test_addI : (after (.addI 2) { regs [(2, 3)] with i := 0xFFE }).map
      (fun t => (t.i, t.getV 15)) = some (1, 1) ∧
    (after (.addI 15) { regs [(15, 0x10)] with i := 0x100 }).map
      (fun t => (t.i, t.getV 15)) = some (0x110, 0) := by decide

/-- V-M4, V-M5. -/
theorem test_addI_bounds : (after (.addI 2) { State.reset with i := 0xFFF }).map
      (fun t => (t.i, t.getV 15)) = some (0xFFF, 0) ∧
    (after (.addI 2) { State.reset with i := 0x1000 }).map
      (fun t => (t.i, t.getV 15)) = some (0, 1) := by decide

/-- V-M7. -/
theorem test_ldF : (after (.ldF 1) (regs [(1, 0x0F)])).map (·.i) = some 0x04B ∧
    (after (.ldF 1) (regs [(1, 0xFF)])).map (·.i) = some 0x4FB := by decide

/-- V-M9 at V-M10's address. -/
theorem test_ldB : (after (.ldB 7) { regs [(7, 255)] with i := 0xFFD }).map
    (fun t => (t.mem, t.i, t.pc)) = some ([(0xFFD, 2), (0xFFE, 5), (0xFFF, 5)], 0xFFD, 0x202) := by decide

/-- V-M11. -/
theorem test_ldB_bounds : raised (.ldB 7) { State.reset with i := 0xFFE } =
    some (.memoryBounds 0xFFE 3) := by decide

/-- V-M12. -/
theorem test_stRegs : (after (.stRegs 2) { regs [(0, 1), (1, 2), (2, 3), (3, 4)] with i := 0x300 }).map
    (fun t => (t.mem, t.i, t.pc)) = some ([(0x300, 1), (0x301, 2), (0x302, 3)], 0x303, 0x202) := by decide

/-- V-M13 with both values of the parameter, V-M14. -/
theorem test_stRegs_bounds :
    (after (.stRegs 0) { State.reset with i := 0xFFF }).map (·.i) = some 0x1000 ∧
    (after (.stRegs 0) { State.reset with i := 0xFFF, config := ⟨[], true, .nine⟩ }).map (·.i) = some 0 ∧
    raised (.stRegs 1) { State.reset with i := 0xFFF } = some (.memoryBounds 0xFFF 2) := by decide

/-- V-M15. -/
theorem test_ldRegs : (after (.ldRegs 2)
      (poke { regs [(3, 9)] with i := 0x300 } 0x300 [0xA, 0xB, 0xC])).map
    (fun t => (t.v.toList.take 4, t.i, t.pc)) = some ([0xA, 0xB, 0xC, 9], 0x303, 0x202) := by decide

/-- V-M17. -/
theorem test_ldRegs_bounds : raised (.ldRegs 15) { State.reset with i := 0xFF8 } =
    some (.memoryBounds 0xFF8 16) := by decide

/-! ### Keys and timers -/

/-- V-K1, V-K2. -/
theorem test_skp : (after (.skp 1) { regs [(1, 5)] with keys := 0x20 }).map (·.pc) = some 0x204 ∧
    (after (.skp 1) (regs [(1, 5)])).map (·.pc) = some 0x202 := by decide

/-- V-K1, V-K2. -/
theorem test_sknp : (after (.sknp 1) { regs [(1, 5)] with keys := 0x20 }).map (·.pc) = some 0x202 ∧
    (after (.sknp 1) (regs [(1, 5)])).map (·.pc) = some 0x204 := by decide

/-- V-K3. -/
theorem test_key_index : raised (.skp 1) (regs [(1, 0x10)]) = some (.badKeyIndex 0x10) ∧
    raised (.sknp 1) (regs [(1, 0x10)]) = some (.badKeyIndex 0x10) := by decide

/-- V-K4. -/
theorem test_ldVxDt : (after (.ldVxDt 3) { State.reset with dt := 0x3C }).map (·.getV 3) = some 0x3C := by
  decide

/-- V-K8. -/
theorem test_ldVxK : (after (.ldVxK 5) { State.reset with pc := 0x210 }).map
    (fun t => (t.wait, t.pc)) = some (⟨true, 5⟩, 0x210) := by decide

/-- V-K5. -/
theorem test_ldDtVx : (after (.ldDtVx 0) (regs [(0, 5)])).map (·.dt) = some 5 := by decide

/-- V-K6: one whole step that ticks. -/
theorem test_ldStVx : (stepped (({ (fed false 0) with div := 8 }.setV 0 1).withFetchWord 16 0xF018)).map
    (fun t => (t.st, t.out.beep, t.div)) = some (0, true, 0) := by decide

/-- A machine waiting at the `F50A` at 0x210, all keys released, with the keys of the next cycle. -/
def waiting (keys : BitVec 16) : State :=
  poke { (fed false keys) with pc := 0x210, wait := ⟨true, 5⟩ } 0x210 [0xF5, 0x0A]

/-- V-K11. -/
theorem test_wait_completes : (stepped (waiting 0x0204)).map
    (fun t => (t.getV 5, t.wait.active, t.pc)) = some (2, false, 0x212) := by decide

/-- A wait cycle without a new key ticks like any other (60_exceptions R188). -/
theorem test_wait_ticks : (stepped { (waiting 0) with dt := 2, div := 8 }).map
    (fun t => (t.dt, t.div, t.wait.active, t.pc)) = some (1, 0, true, 0x210) := by decide

/-! ### SYS, unrecognized words, the halt detector, stop -/

/-- V-U1. -/
theorem test_sys : (after (.sys 0x123) State.reset).map (fun t => (t.out.diag, t.pc)) =
    some (some (0x123, 0x200), 0x202) := by decide

/-- V-C14. -/
theorem test_dw : (after (.dw 0x5121) State.reset).map (fun t => (t.out.diag, t.pc)) =
    some (some (0x5121, 0x200), 0x202) := by decide

/-- V-U4, V-U5. -/
theorem test_halt_detector :
    (stepped ({ (fed false 0) with zc := 9 })).map (fun t => (t.status, t.zc, t.pc, t.out.diag)) =
      some (.halted 0x200, 10, 0x200, none) ∧
    (stepped (poke { (fed false 0) with zc := 9 } 0x200 [0x60, 0])).map (·.zc) = some 0 := by decide

/-- V-U7. -/
theorem test_stop : (stepped (fed true 0)).map (fun t => (t.status, t.pc, t.div)) =
    some (.stopped 1, 0x200, 0) := by decide

/-- V-C7, and the fault of program 5: the status says the cause, the pc and the opcode (R177). -/
theorem test_fault_info :
    (stepped { (fed false 0) with pc := 0xFFF }).map (·.status) =
      some (.faulted (.memoryBounds 0xFFF 2) 0xFFF none) ∧
    (stepped (poke { (fed false 0) with sp := 16 } 0x200 [0x22, 0])).map (·.status) =
      some (.faulted .stackOverflow 0x200 (some 0x2200)) := by decide

/-! ### Load -/

/-- The default FONT as a vector (93_implementation_defined G1). -/
def fontVector : Vector Byte 80 := Vector.ofFn fun i => defaultFont.getD i.val 0

/-- The reset state is the state after a load of the default FONT and the empty ROM (10_state R44). -/
theorem test_reset_is_load : (load fontVector defaultConfig []).toOption = some State.reset := by decide

/-- A program stands at 0x200 and the font at 0 (70_reset_and_hazards R200; G1: digit 1 begins with 20). -/
theorem test_load : ((load fontVector defaultConfig [0x60, 0x05]).toOption.map
    fun s => (s.mem, s.mem.read 5, s.mem.read 0x201)) =
    some ([(0x200, 0x60), (0x201, 0x05)], 0x20, 0x05) := by decide

theorem test_reset_memory_wf : State.reset.mem.wf = true := by decide

/-! ## Witnesses: inputs that meet the hypotheses of the obligations -/

theorem witness_EncodeThenDecodeIsIdentity :
    Instr.wf (.drw 0xF 0xF 0xF) = true ∧ Instr.wf (.call 0) = true ∧ Instr.wf (.sys 0) = true ∧
    Instr.wf (.sys 0xFFF) = true ∧ Instr.wf (.dw 0x5001) = true ∧ Instr.wf (.dw 0xFFFF) = true := by decide

theorem witness_InstructionRowsAreDisjoint :
    (0x00E0#16 &&& 0xF000#16) = 0#16 ∧ (0x00EE#16 &&& 0xF000#16) = 0#16 ∧
    (0x0000#16 &&& 0xF000#16) = 0#16 ∧ (0x0FFF#16 &&& 0xF000#16) = 0#16 := by decide

/-- Each clause of `DrawTogglesCoveredPixels`: no row; the last address in reach; one past it. -/
theorem witness_DrawTogglesCoveredPixels_bounds :
    ((0 : Nibble).toNat = 0) ∧
    ({ State.reset with i := 0xFF1 }.i.toNat + (15 : Nibble).toNat - 1 ≤ 4095) ∧
    (0 < (15 : Nibble).toNat ∧ 4095 < { State.reset with i := 0xFF2 }.i.toNat + (15 : Nibble).toNat - 1) := by
  decide

/-- A covered pixel at the corner and a pixel next to the glyph that is not covered. -/
theorem witness_DrawTogglesCoveredPixels_covers :
    SpriteCovers State.reset 0 1 5 0 0 ∧ ¬SpriteCovers State.reset 0 1 0 63 31 :=
  ⟨⟨0, by decide, 0, by decide, by decide, by decide, by decide⟩,
   fun ⟨_, hj, _⟩ => absurd hj (Nat.not_lt_zero _)⟩

/-- A draw that collides and a draw that cannot. -/
theorem witness_DrawTogglesCoveredPixels_hits :
    (∃ c r : Nat, c ≤ 63 ∧ r ≤ 31 ∧ SpriteCovers State.reset 0 1 5 c r ∧
      pixel ({ State.reset with fb := State.reset.fb.set 0 1 }).fb c r = true) ∧
    ¬(∃ c r : Nat, c ≤ 63 ∧ r ≤ 31 ∧ SpriteCovers State.reset 0 1 0 c r ∧
      pixel State.reset.fb c r = true) :=
  ⟨⟨0, 0, by decide, by decide, witness_DrawTogglesCoveredPixels_covers.1, by decide⟩,
   fun ⟨_, _, _, _, ⟨_, hj, _⟩, _⟩ => absurd hj (Nat.not_lt_zero _)⟩

theorem witness_DrawingTwiceRestoresFramebuffer :
    ∃ t s1 : State, exec (.drw 0 1 5) State.reset = .next t ∧ s1.fb = t.fb ∧ s1.i = State.reset.i ∧
      s1.getV 0 = State.reset.getV 0 ∧ s1.getV 1 = State.reset.getV 1 ∧
      ∀ j, j < (5 : Nibble).toNat →
        s1.mem.read (State.reset.i.toNat + j) = State.reset.mem.read (State.reset.i.toNat + j) :=
  ⟨_, _, rfl, rfl, rfl, by decide, by decide, fun _ _ => rfl⟩

theorem witness_CallPushesItsAddress :
    State.reset.sp.val ≠ 16 ∧ { State.reset with sp := 15 }.sp.val ≠ 16 ∧
    { State.reset with sp := 16 }.sp.val = 16 := by decide

theorem witness_ReturnPopsAndAddsTwo :
    { State.reset with sp := 1 }.sp.val ≠ 0 ∧ { State.reset with sp := 16 }.sp.val ≠ 0 ∧
    State.reset.sp.val = 0 := by decide

theorem witness_CallThenReturnResumesAfterCall :
    ∃ t u : State, exec (.call 0x300) State.reset = .next t ∧ u.stack = t.stack ∧ u.sp = t.sp :=
  ⟨_, _, rfl, rfl, rfl⟩

theorem witness_SkipsCompare :
    (regs [(3, 0x42)]).getV 3 = 0x42 ∧ (regs [(3, 0x42)]).getV 3 ≠ 0x41 ∧
    (regs [(1, 7), (2, 7)]).getV 1 = (regs [(1, 7), (2, 7)]).getV 2 ∧
    (regs [(1, 7)]).getV 1 ≠ (regs [(1, 7)]).getV 2 := by decide

theorem witness_RegisterSkipsCompare_words :
    0x5001#16 &&& 0xF000#16 = 0x5000#16 ∧ 0x5001#16 &&& 0x000F#16 ≠ 0#16 ∧
    0x9FFF#16 &&& 0xF000#16 = 0x9000#16 ∧ 0x9FFF#16 &&& 0x000F#16 ≠ 0#16 := by decide

/-- Operands on both sides of the flag-register cases of 42_alu R126 to R130. -/
theorem witness_FlagOperands : (0xE : Nibble) ≠ flagReg ∧ (0xF : Nibble) = flagReg := by decide

theorem witness_DecimalStoresThreeDigits :
    { State.reset with i := 0xFFD }.i.toNat + 2 ≤ 4095 ∧
    4095 < { State.reset with i := 0xFFE }.i.toNat + 2 := by decide

/-- For `Fx55` and `Fx65` alike: `x` = 0 and `x` = 15 at the last address in reach and one past it. -/
theorem witness_BlockTransfers :
    { State.reset with i := 0xFFF }.i.toNat + (0 : Nibble).toNat ≤ 4095 ∧
    { State.reset with i := 0xFF0 }.i.toNat + (15 : Nibble).toNat ≤ 4095 ∧
    4095 < { State.reset with i := 0x1000 }.i.toNat + (0 : Nibble).toNat ∧
    4095 < { State.reset with i := 0xFF1 }.i.toNat + (15 : Nibble).toNat := by decide

theorem witness_KeySkipsTestTheLatch :
    ((regs [(1, 0x0F)]).getV 1).toNat ≤ 0xF ∧ 0xF < ((regs [(1, 0x10)]).getV 1).toNat := by decide

/-- The waiting machine with one entry in the table of KEY_CHOICE. -/
def choosing (keys : BitVec 16) (j : Nibble) : State :=
  { (waiting keys) with config := ⟨[(keys, j)], false, .nine⟩ }

/-- A wait with no new key, with key 0, and with key 15. -/
theorem witness_KeyWaitEndsOnNewKey :
    (waiting 0).status = .running ∧ (waiting 0).nextInput.stop = false ∧
    (waiting 0).wait.active = true ∧
    (∀ k : Nat, ¬((waiting 0).nextInput.keys.getLsbD k = true ∧ (waiting 0).keys.getLsbD k = false)) ∧
    ((waiting 1).nextInput.keys.getLsbD 0 = true ∧ (waiting 1).keys.getLsbD 0 = false) ∧
    ((waiting 0x8000).nextInput.keys.getLsbD 15 = true ∧ (waiting 0x8000).keys.getLsbD 15 = false) :=
  ⟨rfl, rfl, rfl, fun k h => absurd h.1 (by simp [waiting, fed, poke, State.nextInput]),
   by decide, by decide⟩

/-- For keys 2 and 9: an entry that names a member, an entry that names none, and no entry. -/
theorem witness_KeyWaitEndsOnNewKey_choice :
    let s := choosing 0x0204 9
    let s1 := choosing 0x0204 5
    (s.status = .running ∧ s.nextInput.stop = false ∧ s.wait.active = true ∧
      s.config.keyChoice.lookup (s.nextInput.keys &&& ~~~s.keys) = some 9 ∧
      s.nextInput.keys.getLsbD 9 = true ∧ s.keys.getLsbD 9 = false) ∧
    (s1.config.keyChoice.lookup (s1.nextInput.keys &&& ~~~s1.keys) = some 5 ∧
      ¬(s1.nextInput.keys.getLsbD 5 = true ∧ s1.keys.getLsbD 5 = false)) ∧
    (waiting 0x0204).config.keyChoice.lookup ((waiting 0x0204).nextInput.keys &&& ~~~(waiting 0x0204).keys)
      = none := by decide

/-- For the four frames over all instructions. -/
theorem witness_Frames :
    (∃ t, exec (.addReg 1 2) State.reset = .next t) ∧ isDestination 2 (.addReg 1 2) = false ∧
    ((2 : Nibble) = flagReg → writesFlag (.addReg 1 2) = false) ∧
    (∃ t, exec (.ldImm 1 5) State.reset = .next t) ∧ isDestination flagReg (.ldImm 1 5) = false ∧
    (flagReg = flagReg → writesFlag (.ldImm 1 5) = false) :=
  ⟨⟨_, rfl⟩, rfl, by decide, ⟨_, rfl⟩, rfl, fun _ => rfl⟩

/-- An address outside a store of two bytes at 0x300, on either side, and any address of a form that
stores nothing. -/
theorem witness_MemoryChangesOnlyWhereStored :
    (∃ t, exec (.stRegs 1) { State.reset with i := 0x300 } = .next t) ∧
    storedBytes (.stRegs 1) { State.reset with i := 0x300 } = some (0x300, 2) ∧
    (∀ base n : Nat, storedBytes (.stRegs 1) { State.reset with i := 0x300 } = some (base, n) →
      0x2FF < base ∨ base + n ≤ 0x2FF) ∧
    (∀ base n : Nat, storedBytes (.stRegs 1) { State.reset with i := 0x300 } = some (base, n) →
      0x302 < base ∨ base + n ≤ 0x302) ∧
    storedBytes .cls State.reset = none := by
  refine ⟨⟨_, rfl⟩, rfl, fun base n h => ?_, fun base n h => ?_, rfl⟩
  · obtain ⟨rfl, rfl⟩ : (0x300, 2) = (base, n) := Option.some.inj h; decide
  · obtain ⟨rfl, rfl⟩ : (0x300, 2) = (base, n) := Option.some.inj h; decide

theorem witness_StepRunsDecodedInstruction :
    let s := (fed false 0).withFetchWord 16 0x6A2F
    s.Runs ∧ s.atExecute.zc ≠ 10 ∧
      decode [s.mem.read s.pc.toNat, s.mem.read (s.pc.toNat + 1)] = .ok (.ldImm 0xA 0x2F, []) :=
  ⟨⟨rfl, rfl, rfl, by decide⟩, by decide, rfl⟩

/-- The invariant holds of a waiting machine with a full stack, which then steps. -/
theorem witness_StepPreservesInvariant :
    ∃ s t : State, s.Inv ∧ s.wait.active = true ∧ step s = .next t :=
  ⟨{ (waiting 0) with sp := 16, stack := Vector.replicate 16 0xFFE, zc := 9, div := 8 }, _,
   ⟨by decide, by decide, by decide, fun j h => by simp, by decide, by decide,
    fun _ => ⟨by decide, by decide⟩, fun h => by cases h⟩, rfl, rfl⟩

theorem witness_LoadLaysOutMemory : ∃ s, load fontVector defaultConfig [0x60, 0x05] = .ok s := ⟨_, rfl⟩

theorem witness_LoadRefusesOnlyLargeRoms :
    (List.replicate 3585 (0 : Byte)).length > 3584 ∧ (List.replicate 3584 (0 : Byte)).length ≤ 3584 := by
  rw [List.length_replicate, List.length_replicate]; decide

theorem witness_TerminalStatesAreAbsorbing :
    { State.reset with status := .stopped 1 }.status ≠ .running ∧
    { State.reset with status := .halted 0x212 }.status ≠ .running ∧
    { State.reset with status := .faulted .stackOverflow 0x200 (some 0x2200) }.status ≠ .running := by
  decide

theorem witness_StopEndsRunWithStateUnchanged :
    (fed true 0).status = .running ∧ (fed true 0).nextInput.stop = true := by decide

theorem witness_EveryCycleLatchesKeys :
    (fed false 1).status = .running ∧ (fed false 1).nextInput.stop = false ∧
    ∃ t, step (fed false 1) = .next t := ⟨rfl, rfl, _, rfl⟩

/-- No word to fetch; the tenth zero word at the last fetchable address; an instruction that raises. -/
theorem witness_FaultsArePrecise :
    let s1 := { (fed false 0) with pc := 0xFFF }
    let s2 := { (fed false 0) with pc := 0xFFE, zc := 9 }
    let s3 := (fed false 0).withFetchWord 16 0x00EE
    (s1.status = .running ∧ s1.nextInput.stop = false ∧ s1.wait.active = false ∧ 4095 < s1.pc.toNat + 1) ∧
    (s2.status = .running ∧ s2.nextInput.stop = false ∧ s2.wait.active = false ∧
      s2.pc.toNat + 1 ≤ 4095 ∧ s2.fetchWord = 0 ∧ s2.zc = 9) ∧
    (s3.status = .running ∧ s3.nextInput.stop = false ∧ s3.wait.active = false ∧
      s3.pc.toNat + 1 ≤ 4095 ∧ ¬(s3.fetchWord = 0 ∧ s3.zc = 9) ∧
      exec (decodeWord s3.fetchWord) s3.atExecute = .fault .stackUnderflow) :=
  ⟨⟨rfl, rfl, rfl, by decide⟩, ⟨rfl, rfl, rfl, by decide, by decide, rfl⟩,
   ⟨rfl, rfl, rfl, by decide, by decide, rfl⟩⟩

theorem witness_TenZeroWordsHaltTheRun :
    let s1 := { (fed false 0) with zc := 9 }
    let s2 := { (fed false 0) with zc := 8 }
    let s3 := poke s1 0x200 [0x60, 0]
    (s3.Runs ∧ s3.fetchWord ≠ 0 ∧ s3.zc ≤ 9) ∧ (s1.Runs ∧ s1.fetchWord = 0 ∧ s1.zc = 9) ∧
    (s2.Runs ∧ s2.fetchWord = 0 ∧ s2.zc < 9) :=
  ⟨⟨⟨rfl, rfl, rfl, by decide⟩, by decide, by decide⟩,
   ⟨⟨rfl, rfl, rfl, by decide⟩, by decide, by decide⟩,
   ⟨⟨rfl, rfl, rfl, by decide⟩, by decide, by decide⟩⟩

theorem witness_DividerTicksEveryNinthCycle :
    { State.reset with div := 8, st := 1 }.out.beep = false ∧
    { State.reset with div := 8, st := 1 }.div = 8 ∧ { State.reset with div := 7 }.out.beep = false ∧
    { State.reset with div := 7 }.div ≠ 8 := by decide

/-- The cycles of a machine that ends each one with nothing driven by its instruction. -/
def idleRun : Nat → State
  | 0 => { State.reset with dt := 5, st := 3 }
  | n + 1 => { (idleRun n) with out := Outputs.quiet }.endCycle

theorem witness_TimersLoseOneEveryNineCycles :
    (idleRun 0).div = 0 ∧
    ∀ j, ∃ u : State, u.dt = (idleRun j).dt ∧ u.st = (idleRun j).st ∧ u.div = (idleRun j).div ∧
      u.out.beep = false ∧ idleRun (j + 1) = u.endCycle :=
  ⟨rfl, fun j => ⟨{ (idleRun j) with out := Outputs.quiet }, rfl, rfl, rfl, rfl, rfl⟩⟩

theorem witness_FramePresentedAtPresentationPoint :
    let s1 := { State.reset with div := 8, frameReady := true }
    let s2 := { State.reset with frameReady := true, config := ⟨[], false, .one⟩ }
    let s3 := { State.reset with div := 7, frameReady := true }
    (s1.out.frame = none ∧ s1.div = 8 ∧ s1.frameReady = true) ∧
    (s2.out.frame = none ∧ s2.config.presentDivider = .one ∧ s2.frameReady = true) ∧
    (s3.out.frame = none ∧
      ¬((s3.config.presentDivider = .one ∨ s3.div = 8) ∧ s3.frameReady = true)) := by decide

/-- For the statements about any one step: a step of an unrecognized word, and one of `00E0`. -/
theorem witness_Steps : (∃ t, step (fed false 0) = .next t) ∧
    ∃ t, step ((fed false 0).withFetchWord 16 0x00E0) = .next t := ⟨⟨_, rfl⟩, ⟨_, rfl⟩⟩

/-- A word that is none of those `CycleChangesBulkStateOnlyByInstruction` excepts, for each clause. -/
theorem witness_CycleChangesBulkStateOnlyByInstruction :
    let s := fed false 0
    (decodeWord s.fetchWord ≠ .cls ∧ ∀ x y n, decodeWord s.fetchWord ≠ .drw x y n) ∧
    (decodeWord s.fetchWord ≠ .ret ∧ ∀ nnn, decodeWord s.fetchWord ≠ .call nnn) ∧
    (∀ x, decodeWord s.fetchWord ≠ .ldB x ∧ decodeWord s.fetchWord ≠ .stRegs x) := by
  intro s
  have h : decodeWord s.fetchWord = .sys 0 := by decide
  simp [h]

theorem witness_ReadGivesLastByteWritten :
    Memory.wf [(0x300, 1)] = true ∧ 4095 ≤ 4095 ∧ (0x300 : Nat) ≠ 4095 := by decide

theorem witness_EqualMemoriesAreEqualData :
    Memory.wf [(0x300, 1)] = true ∧
    ∀ a, a ≤ 4095 → Memory.read [(0x300, 1)] a = Memory.read [(0x300, 1)] a :=
  ⟨by decide, fun _ _ => rfl⟩

/-- `F155` at 0x200 with `I` = 0x202: the next word is the two bytes stored. -/
theorem witness_StoreIsSeenByNextFetch :
    ∃ t, exec (.stRegs 1) { State.reset with i := 0x202 } = .next t ∧
      (1 : Nibble).toNat = (0 : Nibble).toNat + 1 ∧ (1 : Nibble).toNat ≤ (1 : Nibble).toNat ∧
      t.pc.toNat = { State.reset with i := 0x202 }.i.toNat + (0 : Nibble).toNat :=
  ⟨_, rfl, rfl, Nat.le_refl _, by decide⟩

/-- A state about to run a word, with its inputs listed and eight zero words counted. -/
theorem witness_PlacedWordIsFetchedAndRun :
    let s := { (fed false 0) with zc := 8 }
    s.Runs ∧ s.inputs ≠ [] ∧ s.zc < 9 ∧ (0x300 : Nat) ≠ (s.withFetchWord 16 0x6A2F).pc.toNat ∧
      (0x300 : Nat) ≠ (s.withFetchWord 16 0x6A2F).pc.toNat + 1 :=
  ⟨⟨rfl, rfl, rfl, by decide⟩, by decide, by decide, by decide, by decide⟩

/-- The word placed in the reset state runs in the very next step, its stop bit listed as not set. -/
theorem test_placed_word_runs_from_reset :
    (stepped (State.reset.withFetchWord 16 0x6A2F)).map (fun t => (t.getV 0xA, t.pc)) =
      some (0x2F, 0x202) := by decide

end Sys2Proof.Tests
end

section
/-!
PROOFS. The display instruction `00E0` (40_display R90), with the rule that a row of the opcode table
gives the encoding of its instruction.
-/
namespace Sys2Proof.Machine

/-- An instruction row of the opcode table says what the words it matches decode to (30_encoding R75). -/
theorem encodedBy_of_mem {r : Row} (hr : r ∈ instructionRows) : EncodedBy r.pattern r.mask r.build :=
  fun _ hw => decodeWord_of_mem hr (beq_iff_eq.mpr hw)

/-- The rows without a sub-opcode are instruction rows. -/
theorem mem_instructionRows_of_plain {r : Row} (hr : r ∈ rowsPlain) : r ∈ instructionRows := by
  simp [instructionRows, hr]

/-- Every pixel of the clear framebuffer is off (10_state R35). -/
@[simp] theorem pixel_clearFrame (c r : Nat) : pixel clearFrame c r = false := by
  by_cases hr : r < 32 <;> simp [pixel, clearFrame, hr]

/-- The answer of `00E0` in terms of the state's operations. -/
theorem exec_cls (s : State) : exec .cls s = .next (s.setFrame clearFrame).advance := by rfl

/-- Replacing the framebuffer and moving on touches `FB`, `frameReady` and `pc` alone. -/
theorem advance_setFrame_eq (s : State) (fb : Frame) :
    (s.setFrame fb).advance = { s with fb := fb, frameReady := true, pc := s.pc + 2 } := by rfl

/-- Settles O6: `00E0` replaces the framebuffer by the clear one, whose pixels are all off. -/
theorem clearScreenClearsEveryPixel : Obligations.ClearScreenClearsEveryPixel := by
  refine ⟨encodedBy_of_mem (mem_instructionRows_of_plain (.head _)), fun s => ?_⟩
  refine ⟨(s.setFrame clearFrame).advance, exec_cls s, fun c r => ?_, ?_, ?_, ?_⟩
  · simp
  · simp
  · simp
  · simp [advance_setFrame_eq]

end Sys2Proof.Machine
end

section
/-!
PROOFS. The skips of control flow (41_control_flow R105 to R107): one rule for every instruction that
ends in `skipIf`, then the two skips that compare with an immediate.
-/
namespace Sys2Proof.Machine

/-- What a row without a sub-opcode, named by its place in the table, says of the words it matches. -/
theorem encodedBy_plainRow (n : Nat) (hn : n < rowsPlain.length) :
    EncodedBy rowsPlain[n].pattern rowsPlain[n].mask rowsPlain[n].build :=
  encodedBy_of_mem (mem_instructionRows_of_plain (List.getElem_mem hn))

/-- A skip touches `pc` alone (41_control_flow R105). -/
theorem onlyPc_skipIf (s : State) (c : Bool) : OnlyPc s (s.skipIf c) := by rfl

/-- What an instruction that answers a skip does: one `pc` where its condition is met, the other where it
is not, and nothing else. -/
theorem exists_skip {i : Instr} {s : State} {c : Bool} {taken passed : Prop}
    (hexec : exec i s = .next (s.skipIf c)) (htaken : taken → c = true) (hpassed : passed → c = false) :
    ∃ t, exec i s = .next t ∧ OnlyPc s t ∧ (taken → t.pc = s.pc + 4) ∧ (passed → t.pc = s.pc + 2) := by
  refine ⟨s.skipIf c, hexec, onlyPc_skipIf s c, fun h => ?_, fun h => ?_⟩
  · simp [htaken h]
  · simp [hpassed h]

/-- The answer of `3xkk` in terms of the state's operations (R106). -/
theorem exec_seImm (x : Nibble) (kk : Byte) (s : State) :
    exec (.seImm x kk) s = .next (s.skipIf (s.getV x == kk)) := by rfl

/-- The answer of `4xkk` in terms of the state's operations (R107). -/
theorem exec_sneImm (x : Nibble) (kk : Byte) (s : State) :
    exec (.sneImm x kk) s = .next (s.skipIf (s.getV x != kk)) := by rfl

/-- Settles O13: both instructions answer a skip, on `V[x] = kk` and on its negation. -/
theorem immediateSkipsCompare : Obligations.ImmediateSkipsCompare := by
  refine ⟨encodedBy_plainRow 4 (by decide), encodedBy_plainRow 5 (by decide), fun x kk s => ⟨?_, ?_⟩⟩
  · exact exists_skip (exec_seImm x kk s) beq_iff_eq.mpr beq_eq_false_iff_ne.mpr
  · exact exists_skip (exec_sneImm x kk s) bne_iff_ne.mpr bne_eq_false_iff_eq.mpr

end Sys2Proof.Machine
end

section
/-!
PROOFS. The ALU instructions that write one register and no flag (42_alu R120 to R125): one rule for every
instruction that ends in one register write, then the loads, the immediate add and the logic operations.
-/
namespace Sys2Proof.Machine

/-- What a row of the `8xyN` family, named by its place in the table, says of the words it matches. -/
theorem encodedBy_aluRow (n : Nat) (hn : n < rowsAlu.length) :
    EncodedBy rowsAlu[n].pattern rowsAlu[n].mask rowsAlu[n].build :=
  encodedBy_of_mem (by simp [instructionRows, List.getElem_mem hn])

/-- Writing `V[x]` and moving on keeps every other register, VF among them. -/
theorem otherRegsKept_advance_setV (s : State) (x : Nibble) (b : Byte) :
    OtherRegsKept s (s.setV x b).advance x :=
  fun _ hz => getV_setV_ne hz

/-- Writing `V[x]` and moving on touches the registers and `pc` alone. -/
theorem onlyRegsPc_advance_setV (s : State) (x : Nibble) (b : Byte) :
    OnlyRegsPc s (s.setV x b).advance := by rfl

/-- What an instruction that writes the byte `b` to `V[x]` and moves on does: `V[x]` holds whatever is true
of `b`, and nothing else but `pc` changes. -/
theorem exists_writeReg {i : Instr} {s : State} {x : Nibble} {b : Byte} {P : Byte → Prop}
    (hexec : exec i s = .next (s.setV x b).advance) (hb : P b) :
    ∃ t, exec i s = .next t ∧ P (t.getV x) ∧ OtherRegsKept s t x ∧ t.pc = s.pc + 2 ∧ OnlyRegsPc s t := by
  refine ⟨(s.setV x b).advance, hexec, ?_, otherRegsKept_advance_setV s x b, ?_,
    onlyRegsPc_advance_setV s x b⟩
  · rwa [getV_advance, getV_setV_self]
  · rw [State.advance_pc, State.setV_pc]

section
variable (x y : Nibble) (kk : Byte) (s : State)

/-- The answer of `6xkk` in terms of the state's operations (R120). -/
theorem exec_ldImm : exec (.ldImm x kk) s = .next (s.setV x kk).advance := by rfl

/-- The answer of `7xkk` in terms of the state's operations (R121). -/
theorem exec_addImm : exec (.addImm x kk) s = .next (s.setV x (addBytes (s.getV x) kk)).advance := by rfl

/-- The answer of `8xy0` in terms of the state's operations (R122). -/
theorem exec_ldReg : exec (.ldReg x y) s = .next (s.setV x (s.getV y)).advance := by rfl

/-- The answer of `8xy1` in terms of the state's operations (R123). -/
theorem exec_orReg : exec (.orReg x y) s = .next (s.setV x (s.getV x ||| s.getV y)).advance := by rfl

/-- The answer of `8xy2` in terms of the state's operations (R124). -/
theorem exec_andReg : exec (.andReg x y) s = .next (s.setV x (s.getV x &&& s.getV y)).advance := by rfl

/-- The answer of `8xy3` in terms of the state's operations (R125). -/
theorem exec_xorReg : exec (.xorReg x y) s = .next (s.setV x (s.getV x ^^^ s.getV y)).advance := by rfl

end

/-- Settles O15: both loads are one register write, of the immediate and of `V[y]`. -/
theorem loadsWriteOneRegister : Obligations.LoadsWriteOneRegister := by
  refine ⟨encodedBy_plainRow 7 (by decide), encodedBy_aluRow 0 (by decide), fun x kk s => ?_,
    fun x y s => ?_⟩
  · exact exists_writeReg (P := (· = kk)) (exec_ldImm x kk s) rfl
  · exact exists_writeReg (P := (· = s.getV y)) (exec_ldReg x y s) rfl

/-- Settles O16: the one register write is of the exact sum narrowed to a byte. -/
theorem addImmediateWrapsWithoutFlag : Obligations.AddImmediateWrapsWithoutFlag := by
  refine ⟨encodedBy_plainRow 8 (by decide), fun x kk s => ?_⟩
  exact exists_writeReg (P := fun b => b.toNat = ((s.getV x).toNat + kk.toNat) % 256)
    (exec_addImm x kk s) (toNat_addBytes _ _)

/-- Settles O17: each operation is one register write, of a byte whose bits are the operation's on the bits
of the operands. -/
theorem logicOperationsActBitwise : Obligations.LogicOperationsActBitwise := by
  refine ⟨encodedBy_aluRow 1 (by decide), encodedBy_aluRow 2 (by decide), encodedBy_aluRow 3 (by decide),
    fun x y s => ⟨?_, ?_, ?_⟩⟩
  · exact exists_writeReg (P := fun b => ∀ k, b.getLsbD k = ((s.getV x).getLsbD k || (s.getV y).getLsbD k))
      (exec_orReg x y s) fun _ => BitVec.getLsbD_or
  · exact exists_writeReg (P := fun b => ∀ k, b.getLsbD k = ((s.getV x).getLsbD k && (s.getV y).getLsbD k))
      (exec_andReg x y s) fun _ => BitVec.getLsbD_and
  · exact exists_writeReg (P := fun b => ∀ k, b.getLsbD k = ((s.getV x).getLsbD k != (s.getV y).getLsbD k))
      (exec_xorReg x y s) fun _ => BitVec.getLsbD_xor

end Sys2Proof.Machine
end

section
/-!
PROOFS. The instructions that change the index register and touch no memory (43_index_memory R140 to R142):
one rule for the two loads, and the sum modulo 4096 with its overflow flag.
-/
namespace Sys2Proof.Machine

/-- What a row of the families `9` to `D`, named by its place in the table, says of the words it matches. -/
theorem encodedBy_upperRow (n : Nat) (hn : n < rowsUpper.length) :
    EncodedBy rowsUpper[n].pattern rowsUpper[n].mask rowsUpper[n].build :=
  encodedBy_of_mem (by simp [instructionRows, List.getElem_mem hn])

/-- What a row of the `ExNN` and `FxNN` families, named by its place in the table, says of the words it
matches. -/
theorem encodedBy_subRow (n : Nat) (hn : n < rowsSub.length) :
    EncodedBy rowsSub[n].pattern rowsSub[n].mask rowsSub[n].build :=
  encodedBy_of_mem (by simp [instructionRows, List.getElem_mem hn])

/-- The answer of `Annn` in terms of the state's operations (R140). -/
theorem exec_ldI (nnn : Addr12) (s : State) :
    exec (.ldI nnn) s = .next (s.setI (addressOf nnn)).advance := by rfl

/-- The answer of `Fx29` in terms of the state's operations (R142). -/
theorem exec_ldF (x : Nibble) (s : State) :
    exec (.ldF x) s = .next (s.setI (glyphAddress (s.getV x))).advance := by rfl

/-- The answer of `Fx1E` in terms of the state's operations (R141). -/
theorem exec_addI (x : Nibble) (s : State) :
    exec (.addI x) s = .next ((s.setI (BitVec.ofNat 16 (s.i.toNat + (s.getV x).toNat) &&& 0xFFF)).setV
      flagReg (indexOverflowFlag (s.i.toNat + (s.getV x).toNat))).advance := by rfl

/-- Replacing `I` and moving on touches `I` and `pc` alone. -/
theorem onlyIndexPc_advance_setI (s : State) (w : Word) : OnlyIndexPc s (s.setI w).advance := by rfl

/-- What an instruction that loads `w` into `I` and moves on does. -/
theorem exists_loadIndex {i : Instr} {s : State} {w : Word} {n : Nat}
    (hexec : exec i s = .next (s.setI w).advance) (hw : w.toNat = n) :
    ∃ t, exec i s = .next t ∧ t.i.toNat = n ∧ t.pc = s.pc + 2 ∧ OnlyIndexPc s t := by
  refine ⟨(s.setI w).advance, hexec, ?_, ?_, onlyIndexPc_advance_setI s w⟩
  · rwa [State.advance_i, State.setI_i]
  · rw [State.advance_pc, State.setI_pc]

/-- Cutting an exact sum to 12 bits is taking it modulo 4096; that the sum is first narrowed to a word does
not matter, as 4096 divides 65536. -/
theorem toNat_ofNat_and_FFF (n : Nat) : (BitVec.ofNat 16 n &&& 0xFFF).toNat = n % 4096 := by
  rw [toNat_and_FFF, BitVec.toNat_ofNat]
  exact Nat.mod_mod_of_dvd n (by decide)

/-- The overflow flag of an index sum is 1 exactly when the sum does not fit 12 bits (R141). -/
theorem toNat_indexOverflowFlag (n : Nat) : (indexOverflowFlag n).toNat = if n > 0xFFF then 1 else 0 := by
  simp only [indexOverflowFlag, toNat_flagByte, decide_eq_true_eq]

/-- Replacing `I`, writing VF and moving on touches `I`, the registers and `pc` alone. -/
theorem advance_setV_setI_eq (s : State) (w : Word) (x : Nibble) (b : Byte) :
    ((s.setI w).setV x b).advance =
      { s with v := ((s.setI w).setV x b).advance.v, i := w, pc := s.pc + 2 } := by rfl

/-- Settles O24: `Fx1E` replaces `I` by the exact sum cut to 12 bits, then writes the flag of that same sum
to VF, so a write to VF does not reach the addend. -/
theorem addIndexSetsOverflow : Obligations.AddIndexSetsOverflow := by
  refine ⟨encodedBy_subRow 6 (by decide), fun x s => ⟨_, exec_addI x s, ?index, ?flag, ?others, ?pc, ?frame⟩⟩
  case index => rw [State.advance_i, State.setV_i, State.setI_i, toNat_ofNat_and_FFF]
  case flag => rw [getV_advance, getV_setV_self, toNat_indexOverflowFlag]
  case others => exact otherRegsKept_advance_setV (s.setI _) flagReg _
  case pc => rw [State.advance_pc, State.setV_pc, State.setI_pc]
  case frame => exact advance_setV_setI_eq s _ _ _

/-- Settles O23: both loads replace `I` alone, by `nnn` zero-extended and by the address of a glyph, which
fits a word and so is exact. -/
theorem indexLoadsAreExact : Obligations.IndexLoadsAreExact := by
  refine ⟨encodedBy_upperRow 1 (by decide), encodedBy_subRow 7 (by decide), fun nnn s => ?_, fun x s => ?_⟩
  · exact exists_loadIndex (exec_ldI nnn s) (toNat_addressOf nnn)
  · exact exists_loadIndex (exec_ldF x s) (toNat_glyphAddress (s.getV x))

end Sys2Proof.Machine
end

section
/-!
PROOFS. The decoder and the encoder undo each other (30_encoding R72 to R78): what each instruction row
matches and reads, which words no row matches, and the four statements about them.
-/
namespace Sys2Proof
open Machine Laws

/-! ## Decoding the word of an instruction -/

/-- The word of an instruction decodes to it, if its row matches the word and reads the operands back. -/
theorem decode_encode_row (n : Nat) (hn : n < instructionRows.length) {i : Instr}
    (hmatch : encode i &&& instructionRows[n].mask = instructionRows[n].pattern)
    (hbuild : instructionRows[n].build (encode i) = i) : decodeWord (encode i) = i :=
  (encodedBy_of_mem (List.getElem_mem hn) _ hmatch).trans hbuild

section
variable {f x y n : Nibble} {kk : Byte} {nnn : Addr12}

/-- What a row of format `A` builds from a word of that format. -/
theorem read_address (build : Addr12 → Instr) : build (fieldNNN (wordA f nnn)) = build nnn := by
  rw [fieldNNN_wordA]

/-- What a row of format `XK` builds from a word of that format. -/
theorem read_immediate (build : Nibble → Byte → Instr) :
    build (fieldX (wordXK f x kk)) (fieldKK (wordXK f x kk)) = build x kk := by
  rw [fieldX_wordXK, fieldKK_wordXK]

/-- What a row of format `X` builds from a word of that format. -/
theorem read_register (build : Nibble → Instr) : build (fieldX (wordXK f x kk)) = build x := by
  rw [fieldX_wordXK]

/-- What a row of format `XYN` with a fixed low nibble builds from a word of that format. -/
theorem read_registers (build : Nibble → Nibble → Instr) :
    build (fieldX (wordXYN f x y n)) (fieldY (wordXYN f x y n)) = build x y := by
  rw [fieldX_wordXYN, fieldY_wordXYN]

/-- What a row of format `XYN` builds from a word of that format. -/
theorem read_sprite (build : Nibble → Nibble → Nibble → Instr) :
    build (fieldX (wordXYN f x y n)) (fieldY (wordXYN f x y n)) (fieldN (wordXYN f x y n)) = build x y n := by
  rw [fieldX_wordXYN, fieldY_wordXYN, fieldN_wordXYN]

end

/-- The family nibble of a word is 0 exactly in the `0nnn` space. -/
theorem mask_zero_iff (w : Word) : w &&& 0xF000 = 0 ↔ fieldFamily w = 0 := mask_F000_iff w 0

/-- In the `0nnn` space only `00E0` and `00EE` match an instruction row (30_encoding R76). -/
theorem no_row_of_family_zero {w : Word} (hf : fieldFamily w = 0) (hcls : w ≠ 0x00E0) (hret : w ≠ 0x00EE) :
    ∀ r ∈ instructionRows, r.matches w = false := by
  refine fun r hr => Bool.eq_false_iff.mpr fun hm => ?_
  obtain h | h | ⟨h, _⟩ := row_fields hr hm
  · exact hcls h
  · exact hret h
  · exact h hf

/-- An unrecognized word lies outside the `0nnn` space. -/
theorem family_ne_zero_of_unrecognized {w : Word} (h : isUnrecognized w = true) : fieldFamily w ≠ 0 := by
  intro hf
  simp [isUnrecognized_fields, hf] at h

/-- No instruction row matches an unrecognized word (30_encoding R78). -/
theorem no_row_of_unrecognized {w : Word} (h : isUnrecognized w = true) :
    ∀ r ∈ instructionRows, r.matches w = false := by
  refine fun r hr => Bool.eq_false_iff.mpr fun hm => ?_
  obtain rfl | rfl | ⟨_, hu⟩ := row_fields hr hm
  · exact absurd h (by decide)
  · exact absurd h (by decide)
  · simp [h] at hu

/-- A `0nnn` word but `00E0` and `00EE` decodes to SYS (45_unrecognized R160). -/
theorem decodeWord_of_family_zero {w : Word} (hf : fieldFamily w = 0) (hcls : w ≠ 0x00E0)
    (hret : w ≠ 0x00EE) : decodeWord w = .sys (fieldNNN w) := by
  rw [decodeWord_of_no_row (no_row_of_family_zero hf hcls hret), if_pos ((mask_zero_iff w).mpr hf)]

/-- An unrecognized word decodes to the fallback (45_unrecognized R161). -/
theorem decodeWord_of_unrecognized {w : Word} (h : isUnrecognized w = true) : decodeWord w = .dw w := by
  rw [decodeWord_of_no_row (no_row_of_unrecognized h), if_neg]
  exact fun hz => family_ne_zero_of_unrecognized h ((mask_zero_iff w).mp hz)

/-- The word of a well-formed SYS is none of the two that take priority (30_encoding R76). -/
theorem decodeWord_encode_sys {nnn : Addr12} (h : isSysAddress nnn = true) :
    decodeWord (wordA 0 nnn) = .sys nnn := by
  simp only [isSysAddress, Bool.and_eq_true, bne_iff_ne] at h
  have hne {a : Addr12} (ha : nnn ≠ a) : wordA 0 nnn ≠ wordA 0 a := fun he =>
    ha (by simpa using congrArg fieldNNN he)
  rw [decodeWord_of_family_zero (by simp) (hne h.1) (hne h.2), fieldNNN_wordA]

/-- Decoding the word of a well-formed instruction gives the instruction back: its row in the opcode table
matches the word, and the fields of the word are the operands. -/
theorem decodeWord_encode (i : Instr) (h : i.wf = true) : decodeWord (encode i) = i := by
  cases i with
  | cls => exact decode_encode_row 0 (by decide) RowPattern.cls rfl
  | ret => exact decode_encode_row 1 (by decide) RowPattern.ret rfl
  | jp nnn => exact decode_encode_row 2 (by decide) (RowPattern.jp nnn) (read_address .jp)
  | call nnn => exact decode_encode_row 3 (by decide) (RowPattern.call nnn) (read_address .call)
  | seImm x kk => exact decode_encode_row 4 (by decide) (RowPattern.seImm x kk) (read_immediate .seImm)
  | sneImm x kk => exact decode_encode_row 5 (by decide) (RowPattern.sneImm x kk) (read_immediate .sneImm)
  | seReg x y => exact decode_encode_row 6 (by decide) (RowPattern.seReg x y) (read_registers .seReg)
  | ldImm x kk => exact decode_encode_row 7 (by decide) (RowPattern.ldImm x kk) (read_immediate .ldImm)
  | addImm x kk => exact decode_encode_row 8 (by decide) (RowPattern.addImm x kk) (read_immediate .addImm)
  | ldReg x y => exact decode_encode_row 9 (by decide) (RowPattern.ldReg x y) (read_registers .ldReg)
  | orReg x y => exact decode_encode_row 10 (by decide) (RowPattern.orReg x y) (read_registers .orReg)
  | andReg x y => exact decode_encode_row 11 (by decide) (RowPattern.andReg x y) (read_registers .andReg)
  | xorReg x y => exact decode_encode_row 12 (by decide) (RowPattern.xorReg x y) (read_registers .xorReg)
  | addReg x y => exact decode_encode_row 13 (by decide) (RowPattern.addReg x y) (read_registers .addReg)
  | subReg x y => exact decode_encode_row 14 (by decide) (RowPattern.subReg x y) (read_registers .subReg)
  | shr x y => exact decode_encode_row 15 (by decide) (RowPattern.shr x y) (read_registers .shr)
  | subnReg x y => exact decode_encode_row 16 (by decide) (RowPattern.subnReg x y) (read_registers .subnReg)
  | shl x y => exact decode_encode_row 17 (by decide) (RowPattern.shl x y) (read_registers .shl)
  | sneReg x y => exact decode_encode_row 18 (by decide) (RowPattern.sneReg x y) (read_registers .sneReg)
  | ldI nnn => exact decode_encode_row 19 (by decide) (RowPattern.ldI nnn) (read_address .ldI)
  | jpV0 nnn => exact decode_encode_row 20 (by decide) (RowPattern.jpV0 nnn) (read_address .jpV0)
  | rnd x kk => exact decode_encode_row 21 (by decide) (RowPattern.rnd x kk) (read_immediate .rnd)
  | drw x y n => exact decode_encode_row 22 (by decide) (RowPattern.drw x y n) (read_sprite .drw)
  | skp x => exact decode_encode_row 23 (by decide) (RowPattern.skp x) (read_register .skp)
  | sknp x => exact decode_encode_row 24 (by decide) (RowPattern.sknp x) (read_register .sknp)
  | ldVxDt x => exact decode_encode_row 25 (by decide) (RowPattern.ldVxDt x) (read_register .ldVxDt)
  | ldVxK x => exact decode_encode_row 26 (by decide) (RowPattern.ldVxK x) (read_register .ldVxK)
  | ldDtVx x => exact decode_encode_row 27 (by decide) (RowPattern.ldDtVx x) (read_register .ldDtVx)
  | ldStVx x => exact decode_encode_row 28 (by decide) (RowPattern.ldStVx x) (read_register .ldStVx)
  | addI x => exact decode_encode_row 29 (by decide) (RowPattern.addI x) (read_register .addI)
  | ldF x => exact decode_encode_row 30 (by decide) (RowPattern.ldF x) (read_register .ldF)
  | ldB x => exact decode_encode_row 31 (by decide) (RowPattern.ldB x) (read_register .ldB)
  | stRegs x => exact decode_encode_row 32 (by decide) (RowPattern.stRegs x) (read_register .stRegs)
  | ldRegs x => exact decode_encode_row 33 (by decide) (RowPattern.ldRegs x) (read_register .ldRegs)
  | sys nnn => exact decodeWord_encode_sys h
  | dw word => exact decodeWord_of_unrecognized h

/-- Settles O1: by the rows of the opcode table, and by the two rules for the words no row matches. -/
theorem encodeThenDecodeIsIdentity : Obligations.EncodeThenDecodeIsIdentity := decodeWord_encode

/-- Settles O5: each of the words is the word of its instruction, so decoding gives the instruction back. -/
theorem sampleWordsDecode : Obligations.SampleWordsDecode :=
  ⟨decodeWord_encode .cls rfl, decodeWord_encode .ret rfl, decodeWord_encode (.sys 0x123) rfl,
    decodeWord_encode (.jp 0x234) rfl, decodeWord_encode (.call 0x300) rfl,
    decodeWord_encode (.seImm 0x3 0x42) rfl, decodeWord_encode (.sneImm 0x0 0x01) rfl,
    decodeWord_encode (.seReg 0x1 0x2) rfl, decodeWord_encode (.dw 0x5121) rfl,
    decodeWord_encode (.ldImm 0xA 0x2F) rfl, decodeWord_encode (.addImm 0x5 0x03) rfl,
    decodeWord_encode (.subReg 0x1 0x2) rfl, decodeWord_encode (.sneReg 0x1 0x2) rfl,
    decodeWord_encode (.ldI 0x2F0) rfl, decodeWord_encode (.jpV0 0x300) rfl,
    decodeWord_encode (.rnd 0x0 0x0F) rfl, decodeWord_encode (.drw 0x0 0x1 0x5) rfl,
    decodeWord_encode (.skp 0x1) rfl, decodeWord_encode (.stRegs 0x2) rfl⟩

/-! ## Encoding what a word decodes to -/

/-- Every word a row matches is the word of the well-formed instruction the row reads from it. -/
def Row.Reads (r : Row) : Prop :=
  ∀ w : Word, r.matches w = true → (r.build w).wf = true ∧ encode (r.build w) = w

section
variable (f n : Nibble)

/-- A row of format `A`. -/
theorem reads_address (build : Addr12 → Instr)
    (h : ∀ nnn, (build nnn).wf = true ∧ encode (build nnn) = wordA f nnn) :
    Row.Reads ⟨wordA f 0, 0xF000, fun w => build (fieldNNN w)⟩ := by
  intro w hw
  obtain rfl := (mask_F000_iff w f).mp (beq_iff_eq.mp hw)
  exact ⟨(h _).1, (h _).2.trans (wordA_fields w)⟩

/-- A row of format `XK`. -/
theorem reads_immediate (build : Nibble → Byte → Instr)
    (h : ∀ x kk, (build x kk).wf = true ∧ encode (build x kk) = wordXK f x kk) :
    Row.Reads ⟨wordA f 0, 0xF000, fun w => build (fieldX w) (fieldKK w)⟩ := by
  intro w hw
  obtain rfl := (mask_F000_iff w f).mp (beq_iff_eq.mp hw)
  exact ⟨(h _ _).1, (h _ _).2.trans (wordXK_fields w)⟩

/-- A row of format `XYN`. -/
theorem reads_sprite (build : Nibble → Nibble → Nibble → Instr)
    (h : ∀ x y n, (build x y n).wf = true ∧ encode (build x y n) = wordXYN f x y n) :
    Row.Reads ⟨wordA f 0, 0xF000, fun w => build (fieldX w) (fieldY w) (fieldN w)⟩ := by
  intro w hw
  obtain rfl := (mask_F000_iff w f).mp (beq_iff_eq.mp hw)
  exact ⟨(h _ _ _).1, (h _ _ _).2.trans (wordXYN_fields w)⟩

/-- A row of format `XYN` with a fixed low nibble. -/
theorem reads_registers (build : Nibble → Nibble → Instr)
    (h : ∀ x y, (build x y).wf = true ∧ encode (build x y) = wordXYN f x y n) :
    Row.Reads ⟨wordXYN f 0 0 n, 0xF00F, fun w => build (fieldX w) (fieldY w)⟩ := by
  intro w hw
  obtain ⟨rfl, rfl⟩ := (mask_F00F_iff w f n).mp (beq_iff_eq.mp hw)
  exact ⟨(h _ _).1, (h _ _).2.trans (wordXYN_fields w)⟩

/-- A row of format `X`, with a fixed low byte. -/
theorem reads_register (k : Byte) (build : Nibble → Instr)
    (h : ∀ x, (build x).wf = true ∧ encode (build x) = wordXK f x k) :
    Row.Reads ⟨wordXK f 0 k, 0xF0FF, fun w => build (fieldX w)⟩ := by
  intro w hw
  obtain ⟨rfl, rfl⟩ := (mask_F0FF_iff w f k).mp (beq_iff_eq.mp hw)
  exact ⟨(h _).1, (h _).2.trans (wordXK_fields w)⟩

/-- A row that fixes every bit. -/
theorem reads_word (p : Word) (i : Instr) (h : i.wf = true ∧ encode i = p) :
    Row.Reads ⟨p, 0xFFFF, fun _ => i⟩ := by
  intro w hw
  have hp : w = p := (BitVec.and_allOnes (x := w)).symm.trans (beq_iff_eq.mp hw)
  exact ⟨h.1, h.2.trans hp.symm⟩

end

/-- The rows without a sub-opcode. -/
theorem reads_of_plain : ∀ r ∈ rowsPlain, r.Reads := by
  simp only [rowsPlain, List.forall_mem_cons]
  exact ⟨reads_word _ .cls ⟨rfl, rfl⟩, reads_word _ .ret ⟨rfl, rfl⟩,
    reads_address 1 .jp fun _ => ⟨rfl, rfl⟩, reads_address 2 .call fun _ => ⟨rfl, rfl⟩,
    reads_immediate 3 .seImm fun _ _ => ⟨rfl, rfl⟩, reads_immediate 4 .sneImm fun _ _ => ⟨rfl, rfl⟩,
    reads_registers 5 0 .seReg fun _ _ => ⟨rfl, rfl⟩, reads_immediate 6 .ldImm fun _ _ => ⟨rfl, rfl⟩,
    reads_immediate 7 .addImm fun _ _ => ⟨rfl, rfl⟩, List.forall_mem_nil _⟩

/-- The rows of the `8xyN` family. -/
theorem reads_of_alu : ∀ r ∈ rowsAlu, r.Reads := by
  simp only [rowsAlu, List.forall_mem_cons]
  exact ⟨reads_registers 8 0 .ldReg fun _ _ => ⟨rfl, rfl⟩, reads_registers 8 1 .orReg fun _ _ => ⟨rfl, rfl⟩,
    reads_registers 8 2 .andReg fun _ _ => ⟨rfl, rfl⟩, reads_registers 8 3 .xorReg fun _ _ => ⟨rfl, rfl⟩,
    reads_registers 8 4 .addReg fun _ _ => ⟨rfl, rfl⟩, reads_registers 8 5 .subReg fun _ _ => ⟨rfl, rfl⟩,
    reads_registers 8 6 .shr fun _ _ => ⟨rfl, rfl⟩, reads_registers 8 7 .subnReg fun _ _ => ⟨rfl, rfl⟩,
    reads_registers 8 0xE .shl fun _ _ => ⟨rfl, rfl⟩, List.forall_mem_nil _⟩

/-- The rows of the families `9` to `D`. -/
theorem reads_of_upper : ∀ r ∈ rowsUpper, r.Reads := by
  simp only [rowsUpper, List.forall_mem_cons]
  exact ⟨reads_registers 9 0 .sneReg fun _ _ => ⟨rfl, rfl⟩, reads_address 0xA .ldI fun _ => ⟨rfl, rfl⟩,
    reads_address 0xB .jpV0 fun _ => ⟨rfl, rfl⟩, reads_immediate 0xC .rnd fun _ _ => ⟨rfl, rfl⟩,
    reads_sprite 0xD .drw fun _ _ _ => ⟨rfl, rfl⟩, List.forall_mem_nil _⟩

/-- The rows of the `ExNN` and `FxNN` families. -/
theorem reads_of_sub : ∀ r ∈ rowsSub, r.Reads := by
  simp only [rowsSub, List.forall_mem_cons]
  exact ⟨reads_register 0xE 0x9E .skp fun _ => ⟨rfl, rfl⟩, reads_register 0xE 0xA1 .sknp fun _ => ⟨rfl, rfl⟩,
    reads_register 0xF 0x07 .ldVxDt fun _ => ⟨rfl, rfl⟩, reads_register 0xF 0x0A .ldVxK fun _ => ⟨rfl, rfl⟩,
    reads_register 0xF 0x15 .ldDtVx fun _ => ⟨rfl, rfl⟩, reads_register 0xF 0x18 .ldStVx fun _ => ⟨rfl, rfl⟩,
    reads_register 0xF 0x1E .addI fun _ => ⟨rfl, rfl⟩, reads_register 0xF 0x29 .ldF fun _ => ⟨rfl, rfl⟩,
    reads_register 0xF 0x33 .ldB fun _ => ⟨rfl, rfl⟩, reads_register 0xF 0x55 .stRegs fun _ => ⟨rfl, rfl⟩,
    reads_register 0xF 0x65 .ldRegs fun _ => ⟨rfl, rfl⟩, List.forall_mem_nil _⟩

/-- Each of the 34 rows reads every bit that its mask leaves free (30_encoding R75). -/
theorem reads_of_mem {r : Row} (hr : r ∈ instructionRows) : r.Reads := by
  simp only [instructionRows, List.mem_append] at hr
  obtain ((hr | hr) | hr) | hr := hr
  · exact reads_of_plain r hr
  · exact reads_of_alu r hr
  · exact reads_of_upper r hr
  · exact reads_of_sub r hr

/-! ## The words no row matches -/

/-- Outside the `0nnn` space, the fields of a word that is none of the unrecognized ones (30_encoding R78). -/
theorem fields_of_recognized {w : Word} (hf : fieldFamily w ≠ 0) (hu : isUnrecognized w = false) :
    fieldFamily w ∈ [0x1#4, 0x2#4, 0x3#4, 0x4#4, 0x6#4, 0x7#4, 0xA#4, 0xB#4, 0xC#4, 0xD#4] ∨
    (fieldFamily w = 0x5 ∧ fieldN w = 0) ∨
    (fieldFamily w = 0x8 ∧ fieldN w ∈ [0x0#4, 0x1#4, 0x2#4, 0x3#4, 0x4#4, 0x5#4, 0x6#4, 0x7#4, 0xE#4]) ∨
    (fieldFamily w = 0x9 ∧ fieldN w = 0) ∨
    (fieldFamily w = 0xE ∧ fieldKK w ∈ [0x9E#8, 0xA1#8]) ∨
    (fieldFamily w = 0xF ∧
      fieldKK w ∈ [0x07#8, 0x0A#8, 0x15#8, 0x18#8, 0x1E#8, 0x29#8, 0x33#8, 0x55#8, 0x65#8]) := by
  rw [isUnrecognized_fields] at hu
  generalize fieldFamily w = f at *
  generalize fieldN w = n at *
  generalize fieldKK w = k at *
  by_cases hE : f = 0xE
  · subst hE; simpa [Decidable.or_iff_not_imp_left] using hu
  by_cases hF : f = 0xF
  · subst hF; simpa [Decidable.or_iff_not_imp_left] using hu
  simp only [beq_eq_false_iff_ne.mpr hE, beq_eq_false_iff_ne.mpr hF, hE, hF, Bool.false_and, Bool.or_false,
    false_and, or_false] at hu ⊢
  clear k
  revert f n
  decide

/-- An instruction row with a given (match, mask) pair. -/
def RowExists (pattern mask : Word) : Prop := ∃ r ∈ instructionRows, r.pattern = pattern ∧ r.mask = mask

/-- A row matches the words with its pattern under its mask. -/
theorem exists_row_of_masked {w p m : Word} (hrow : RowExists p m) (h : w &&& m = p) :
    ∃ r ∈ instructionRows, r.matches w = true := by
  obtain ⟨r, hr, rfl, rfl⟩ := hrow
  exact ⟨r, hr, beq_iff_eq.mpr h⟩

/-- The families with one row. -/
theorem familyRow_exists : ∀ f ∈ [0x1#4, 0x2#4, 0x3#4, 0x4#4, 0x6#4, 0x7#4, 0xA#4, 0xB#4, 0xC#4, 0xD#4],
    RowExists (wordA f 0) 0xF000 := by unfold RowExists; decide

/-- The rows of the `8xyN` family. -/
theorem aluRow_exists : ∀ n ∈ [0x0#4, 0x1#4, 0x2#4, 0x3#4, 0x4#4, 0x5#4, 0x6#4, 0x7#4, 0xE#4],
    RowExists (wordXYN 0x8 0 0 n) 0xF00F := by unfold RowExists; decide

/-- The rows of the `FxNN` family. -/
theorem miscRow_exists : ∀ k ∈ [0x07#8, 0x0A#8, 0x15#8, 0x18#8, 0x1E#8, 0x29#8, 0x33#8, 0x55#8, 0x65#8],
    RowExists (wordXK 0xF 0 k) 0xF0FF := by unfold RowExists; decide

/-- The rows of the `ExNN` family. -/
theorem keyRow_exists : ∀ k ∈ [0x9E#8, 0xA1#8], RowExists (wordXK 0xE 0 k) 0xF0FF := by
  unfold RowExists; decide

/-- Outside the `0nnn` space, a word that is none of the unrecognized ones matches a row: the converse of
`row_fields`. -/
theorem exists_row_of_recognized {w : Word} (hf : fieldFamily w ≠ 0) (hu : isUnrecognized w = false) :
    ∃ r ∈ instructionRows, r.matches w = true := by
  obtain h | h | ⟨h, hn⟩ | h | ⟨h, hk⟩ | ⟨h, hk⟩ := fields_of_recognized hf hu
  · exact exists_row_of_masked (familyRow_exists _ h) ((mask_F000_iff w _).mpr rfl)
  · exact exists_row_of_masked (by unfold RowExists; decide) ((mask_F00F_iff w _ _).mpr h)
  · exact exists_row_of_masked (aluRow_exists _ hn) ((mask_F00F_iff w _ _).mpr ⟨h, rfl⟩)
  · exact exists_row_of_masked (by unfold RowExists; decide) ((mask_F00F_iff w _ _).mpr h)
  · exact exists_row_of_masked (keyRow_exists _ hk) ((mask_F0FF_iff w _ _).mpr ⟨h, rfl⟩)
  · exact exists_row_of_masked (miscRow_exists _ hk) ((mask_F0FF_iff w _ _).mpr ⟨h, rfl⟩)

/-- The words no row matches: SYS, and the unrecognized words (30_encoding R78). -/
theorem no_row_iff (w : Word) : (∀ r ∈ instructionRows, r.matches w = false) ↔
    (fieldFamily w = 0 ∧ w ≠ 0x00E0 ∧ w ≠ 0x00EE) ∨ isUnrecognized w = true := by
  constructor
  · intro h
    by_cases hu : isUnrecognized w = true
    · exact .inr hu
    refine .inl ⟨?_, ?_, ?_⟩
    · refine Classical.byContradiction fun hf => ?_
      obtain ⟨r, hr, hm⟩ := exists_row_of_recognized hf (Bool.eq_false_iff.mpr hu)
      rw [h r hr] at hm
      cases hm
    · rintro rfl; exact absurd h (by decide)
    · rintro rfl; exact absurd h (by decide)
  · rintro (⟨hf, hcls, hret⟩ | hu)
    · exact no_row_of_family_zero hf hcls hret
    · exact no_row_of_unrecognized hu

/-! ## Every word -/

/-- The well-formed instruction of a word in each of the three parts of the opcode space. -/
theorem decodeWord_reads (w : Word) : (decodeWord w).wf = true ∧ encode (decodeWord w) = w := by
  by_cases hrow : ∃ r ∈ instructionRows, r.matches w = true
  · obtain ⟨r, hr, hm⟩ := hrow
    rw [decodeWord_of_mem hr hm]
    exact reads_of_mem hr w hm
  have hno : ∀ r ∈ instructionRows, r.matches w = false := by simpa using hrow
  obtain ⟨hf, hcls, hret⟩ | hu := (no_row_iff w).mp hno
  · rw [decodeWord_of_family_zero hf hcls hret]
    have hw : wordA 0 (fieldNNN w) = w := hf ▸ wordA_fields w
    refine ⟨?_, hw⟩
    have hne {a : Addr12} (h : w ≠ wordA 0 a) : fieldNNN w ≠ a := fun ha => h (ha ▸ hw.symm)
    simpa [Instr.wf, isSysAddress] using ⟨hne hcls, hne hret⟩
  · rw [decodeWord_of_unrecognized hu]
    exact ⟨hu, rfl⟩

/-- Settles O2: a row reads every bit it does not fix, and the two rules for the words no row matches keep
the word. -/
theorem decodeThenEncodeIsIdentity : Obligations.DecodeThenEncodeIsIdentity := decodeWord_reads

/-- A word that decodes to SYS is its `0nnn` word. -/
theorem eq_wordA_of_decodeWord_sys {w : Word} {nnn : Addr12} (h : decodeWord w = .sys nnn) :
    w = wordA 0 nnn := by
  rw [← (decodeWord_reads w).2, h]; rfl

/-- A word that decodes to the fallback is the word the fallback holds. -/
theorem eq_of_decodeWord_dw {w w' : Word} (h : decodeWord w = .dw w') : w = w' := by
  rw [← (decodeWord_reads w).2, h]; rfl

/-- Settles O3: the rows differ in a bit both fix, and no row but those of `00E0` and `00EE` lies in the
`0nnn` space. -/
theorem instructionRowsAreDisjoint : Obligations.InstructionRowsAreDisjoint := by
  refine ⟨rfl, instructionRows_disjoint.imp fun hd w h => ?_, fun w hw => ?_⟩
  · exact absurd h.2 (Bool.eq_false_iff.mp (not_both_match hd h.1))
  · split
    next hcls => subst hcls; rfl
    next hcls =>
    split
    next hret => subst hret; rfl
    next hret => exact decodeWord_of_family_zero ((mask_zero_iff w).mp hw) hcls hret

/-! ## The unrecognized words as listed -/

/-- The list of the `0nnn` words, by fields. -/
theorem listedSys_iff (w : Word) : ListedSys w ↔ fieldFamily w = 0 ∧ w ≠ 0x00E0 ∧ w ≠ 0x00EE := by
  constructor
  · rintro ⟨nnn, rfl, hne⟩
    exact ⟨by simp, hne⟩
  · rintro ⟨hf, hne⟩
    exact ⟨fieldNNN w, (hf ▸ wordA_fields w).symm, hne⟩

/-- The words of format `XYN` with a given family, by fields. -/
theorem exists_wordXYN {w : Word} {f : Nibble} {P : Nibble → Prop} :
    (∃ x y n, P n ∧ w = wordXYN f x y n) ↔ fieldFamily w = f ∧ P (fieldN w) := by
  constructor
  · rintro ⟨x, y, n, hn, rfl⟩
    simpa using hn
  · rintro ⟨rfl, hn⟩
    exact ⟨fieldX w, fieldY w, fieldN w, hn, (wordXYN_fields w).symm⟩

/-- The words of format `XK` with a given family, by fields. -/
theorem exists_wordXK {w : Word} {f : Nibble} {P : Byte → Prop} :
    (∃ x k, P k ∧ w = wordXK f x k) ↔ fieldFamily w = f ∧ P (fieldKK w) := by
  constructor
  · rintro ⟨x, k, hk, rfl⟩
    simpa using hk
  · rintro ⟨rfl, hk⟩
    exact ⟨fieldX w, fieldKK w, hk, (wordXK_fields w).symm⟩

/-- The list of 30_encoding R78 is the decoder's check. -/
theorem listedOther_iff (w : Word) : ListedOther w ↔ isUnrecognized w = true := by
  rw [ListedOther, isUnrecognized_fields]
  simp only [and_or_left, exists_or, exists_wordXYN (P := (· ≠ 0)), exists_wordXYN (P := (· ∈ _)),
    exists_wordXK (P := (· ∉ _))]
  simp [and_assoc, or_assoc, or_left_comm]

/-- Settles O4: the words of the list, by their fields, are those no row matches, and each part of the list
has its own rule of decoding. -/
theorem unrecognizedWordsAreTheListedOnes : Obligations.UnrecognizedWordsAreTheListedOnes := by
  refine fun w => ⟨?_, ⟨fun h => ?_, fun h => ?_⟩, ⟨fun h => ?_, fun h => ?_⟩⟩
  · rw [no_row_iff, listedSys_iff, listedOther_iff]
  · have hw := eq_wordA_of_decodeWord_sys h
    refine ⟨_, hw, ?_, ?_⟩
    · rintro rfl; cases h
    · rintro rfl; cases h
  · obtain ⟨hf, hcls, hret⟩ := (listedSys_iff w).mp h
    exact decodeWord_of_family_zero hf hcls hret
  · have hwf := (decodeWord_reads w).1
    rw [h] at hwf
    exact (listedOther_iff w).mpr hwf
  · exact decodeWord_of_unrecognized ((listedOther_iff w).mp h)

end Sys2Proof
end

section
/-!
PROOFS. What every instruction answers, said once: the answer in terms of the state's operations, the six
kinds of fault (60_exceptions R177), and `exec_cases`, the one case analysis of `exec` that the frames, the
faults and the invariant rest on.
-/
namespace Sys2Proof.Machine

/-! ## Answers that no check guards -/

section
variable (x y : Nibble) (kk : Byte) (nnn : Addr12) (word : Word) (s : State)

/-- The answer of `1nnn` in terms of the state's operations (R101). -/
theorem exec_jp : exec (.jp nnn) s = .next (s.setPc (addressOf nnn)) := by rfl

/-- The answer of `Bnnn` in terms of the state's operations (R110). -/
theorem exec_jpV0 : exec (.jpV0 nnn) s = .next (s.setPc ((s.getV 0).setWidth 16 + addressOf nnn)) := by rfl

/-- The answer of `5xy0` in terms of the state's operations (R108). -/
theorem exec_seReg : exec (.seReg x y) s = .next (s.skipIf (s.getV x == s.getV y)) := by rfl

/-- The answer of `9xy0` in terms of the state's operations (R109). -/
theorem exec_sneReg : exec (.sneReg x y) s = .next (s.skipIf (s.getV x != s.getV y)) := by rfl

/-- `8xy4` writes the carry, then the sum of the operands read before it (R126). -/
theorem exec_addReg : exec (.addReg x y) s =
    let flagged := s.setV flagReg (carryFlag (s.getV x) (s.getV y))
    .next (flagged.setV x (addBytes (s.getV x) (s.getV y))).advance := by rfl

/-- `8xy5` writes the flag, then the difference of the operands read after it (R127). -/
theorem exec_subReg : exec (.subReg x y) s =
    let flagged := s.setV flagReg (noBorrowFlag (s.getV x) (s.getV y))
    .next (flagged.setV x (subBytes (flagged.getV x) (flagged.getV y))).advance := by rfl

/-- `8xy7` writes the flag, then the difference of the operands read after it (R129). -/
theorem exec_subnReg : exec (.subnReg x y) s =
    let flagged := s.setV flagReg (greaterFlag (s.getV x) (s.getV y))
    .next (flagged.setV x (subBytes (flagged.getV y) (flagged.getV x))).advance := by rfl

/-- `8xy6` writes the bit shifted out, then the shift of the operand read after it (R128). -/
theorem exec_shr : exec (.shr x y) s =
    let flagged := s.setV flagReg (lowBitFlag (s.getV x))
    .next (flagged.setV x (shiftRightOne (flagged.getV x))).advance := by rfl

/-- `8xyE` writes the bit shifted out, then the shift of the operand read after it (R130). -/
theorem exec_shl : exec (.shl x y) s =
    let flagged := s.setV flagReg (highBitFlag (s.getV x))
    .next (flagged.setV x (shiftLeftOne (flagged.getV x))).advance := by rfl

/-- The answer of `Cxkk` in terms of the state's operations (R131). -/
theorem exec_rnd : exec (.rnd x kk) s = .next (s.setV x (s.rnd &&& kk)).advance := by rfl

/-- The answer of `Fx07` in terms of the state's operations (R153). -/
theorem exec_ldVxDt : exec (.ldVxDt x) s = .next (s.setV x s.dt).advance := by rfl

/-- The answer of `Fx0A` in terms of the state's operations (R154). -/
theorem exec_ldVxK : exec (.ldVxK x) s = .next (s.setWait ⟨true, x⟩) := by rfl

/-- The answer of `Fx15` in terms of the state's operations (R155). -/
theorem exec_ldDtVx : exec (.ldDtVx x) s = .next (s.setDt (s.getV x)).advance := by rfl

/-- The answer of `Fx18` in terms of the state's operations (R156). -/
theorem exec_ldStVx : exec (.ldStVx x) s = .next (s.setSt (s.getV x)).advance := by rfl

/-- The answer of SYS in terms of the state's operations (R160). -/
theorem exec_sys : exec (.sys nnn) s = .next (s.emitDiag (addressOf nnn)).advance := by rfl

/-- The answer of an unrecognized word in terms of the state's operations (R162). -/
theorem exec_dw : exec (.dw word) s = .next (s.emitDiag word).advance := by rfl

end

/-! ## Answers behind a check

Each instruction that can raise is a checked operation and a continuation that raises nothing. -/

/-- The state after a push below 16 entries (41_control_flow R103). -/
def State.pushed (s : State) (h : s.sp.val < 16) (a : Word) : State :=
  { s with stack := s.stack.set s.sp.val a h, sp := ⟨s.sp.val + 1, by omega⟩ }

/-- The state after a pop of an entry (41_control_flow R104). -/
def State.popped (s : State) : State := { s with sp := ⟨s.sp.val - 1, by omega⟩ }

/-- The state after bytes were stored at `I` (20_memory R55). -/
def State.storedAtIndex (s : State) (bytes : List Byte) : State :=
  { s with mem := s.mem.writeBytes s.indexAddress bytes }

/-- The framebuffer and the collision after the sprite of `Dxyn` was drawn (40_display R91). -/
def State.drawn (s : State) (x y n : Nibble) : Canvas :=
  drawRows (s.getV x).toNat (s.getV y).toNat (s.mem.readBytes s.indexAddress n.toNat) (s.fb, false)

section
variable (x y n : Nibble) (nnn : Addr12) (s : State)

/-- `2nnn` is a push and a jump (R102). -/
theorem exec_call_checked : exec (.call nnn) s =
    andThen (s.push s.pc) fun t => .next (t.setPc (addressOf nnn)) := by rfl

/-- `00EE` is a pop and a jump (R100). -/
theorem exec_ret_checked : exec .ret s = andThen s.pop fun p => .next (p.2.setPc (p.1 + 2)) := by rfl

/-- `Dxyn` reads its sprite before it draws (R91). -/
theorem exec_drw_checked : exec (.drw x y n) s =
    andThen (s.memRead s.indexAddress n.toNat) fun rows =>
      let drawn := drawRows (s.getV x).toNat (s.getV y).toNat rows (s.fb, false)
      .next ((s.setV flagReg (collisionFlag drawn.2)).setFrame drawn.1).advance := by rfl

/-- `Fx33` stores three digits (R143). -/
theorem exec_ldB_checked : exec (.ldB x) s =
    andThen (s.memWrite s.indexAddress (bcdDigits (s.getV x))) fun t => .next t.advance := by rfl

/-- `Fx55` stores a block of registers (R144). -/
theorem exec_stRegs_checked : exec (.stRegs x) s =
    andThen (s.memWrite s.indexAddress (s.regBlock (transferCount x))) fun t =>
      .next (t.advanceIndex (transferCount x)).advance := by rfl

/-- `Fx65` reads a block of registers (R145). -/
theorem exec_ldRegs_checked : exec (.ldRegs x) s =
    andThen (s.memRead s.indexAddress (transferCount x)) fun bytes =>
      .next ((s.setRegBlock bytes).advanceIndex (transferCount x)).advance := by rfl

/-- `Ex9E` looks its key up (R151). -/
theorem exec_skp_checked : exec (.skp x) s =
    andThen (s.keyPressed (s.getV x)) fun pressed => .next (s.skipIf pressed) := by rfl

/-- `ExA1` looks its key up (R152). -/
theorem exec_sknp_checked : exec (.sknp x) s =
    andThen (s.keyPressed (s.getV x)) fun pressed => .next (s.skipIf (!pressed)) := by rfl

end

section
variable {x y n : Nibble} {nnn : Addr12} {s : State}

/-- `2nnn` with room on the stack (R103). -/
theorem exec_call (h : s.sp.val < 16) :
    exec (.call nnn) s = .next ((s.pushed h s.pc).setPc (addressOf nnn)) := by
  have hpush : s.push s.pc = .ok (s.pushed h s.pc) := dif_pos h
  rw [exec_call_checked, hpush, andThen_ok]

/-- `00EE` with an entry on the stack (R104). -/
theorem exec_ret (h : s.sp.val ≠ 0) :
    exec .ret s = .next (s.popped.setPc (s.stack[s.sp.val - 1]'(by omega) + 2)) := by
  have hpop : s.pop = .ok (s.stack[s.sp.val - 1]'(by omega), s.popped) := dif_neg h
  rw [exec_ret_checked, hpop, andThen_ok]

/-- `Dxyn` with its sprite in memory (R91). -/
theorem exec_drw (h : outOfBounds s.indexAddress n.toNat = false) : exec (.drw x y n) s =
    .next ((s.setV flagReg (collisionFlag (s.drawn x y n).2)).setFrame (s.drawn x y n).1).advance := by
  rw [exec_drw_checked, memRead_eq_ok.mpr ⟨h, rfl⟩]; rfl

/-- `Fx33` with room for three bytes (R143). -/
theorem exec_ldB (h : outOfBounds s.indexAddress 3 = false) :
    exec (.ldB x) s = .next (s.storedAtIndex (bcdDigits (s.getV x))).advance := by
  have hw : s.memWrite s.indexAddress (bcdDigits (s.getV x)) = .ok (s.storedAtIndex (bcdDigits (s.getV x))) :=
    memWrite_eq_ok.mpr ⟨h, rfl⟩
  rw [exec_ldB_checked, hw, andThen_ok]

/-- `Fx55` with room for its block (R144). -/
theorem exec_stRegs (h : outOfBounds s.indexAddress (transferCount x) = false) : exec (.stRegs x) s =
    .next ((s.storedAtIndex (s.regBlock (transferCount x))).advanceIndex (transferCount x)).advance := by
  have hw : s.memWrite s.indexAddress (s.regBlock (transferCount x)) =
      .ok (s.storedAtIndex (s.regBlock (transferCount x))) :=
    memWrite_eq_ok.mpr ⟨(length_regBlock s x).symm ▸ h, rfl⟩
  rw [exec_stRegs_checked, hw, andThen_ok]

/-- `Fx65` with its block in memory (R145). -/
theorem exec_ldRegs (h : outOfBounds s.indexAddress (transferCount x) = false) : exec (.ldRegs x) s =
    .next ((s.setRegBlock (s.mem.readBytes s.indexAddress (transferCount x))).advanceIndex
      (transferCount x)).advance := by
  rw [exec_ldRegs_checked, memRead_eq_ok.mpr ⟨h, rfl⟩, andThen_ok]

/-- `Ex9E` with a key number (R151). -/
theorem exec_skp (h : (s.getV x).toNat ≤ 15) :
    exec (.skp x) s = .next (s.skipIf (s.keys.getLsbD (s.getV x).toNat)) := by
  rw [exec_skp_checked, keyPressed_eq_ok.mpr ⟨h, rfl⟩, andThen_ok]

/-- `ExA1` with a key number (R152). -/
theorem exec_sknp (h : (s.getV x).toNat ≤ 15) :
    exec (.sknp x) s = .next (s.skipIf (!s.keys.getLsbD (s.getV x).toNat)) := by
  rw [exec_sknp_checked, keyPressed_eq_ok.mpr ⟨h, rfl⟩, andThen_ok]

end

/-! ## Faults -/

/-- The faults an instruction raises, and when (60_exceptions R177). -/
inductive FaultCase (s : State) : Instr → Fault → Prop
  | overflow (nnn : Addr12) (h : s.sp.val = 16) : FaultCase s (.call nnn) .stackOverflow
  | underflow (h : s.sp.val = 0) : FaultCase s .ret .stackUnderflow
  | sprite (x y n : Nibble) (h : outOfBounds s.indexAddress n.toNat = true) :
      FaultCase s (.drw x y n) (.memoryBounds s.indexAddress n.toNat)
  | digits (x : Nibble) (h : outOfBounds s.indexAddress 3 = true) :
      FaultCase s (.ldB x) (.memoryBounds s.indexAddress 3)
  | storedBlock (x : Nibble) (h : outOfBounds s.indexAddress (transferCount x) = true) :
      FaultCase s (.stRegs x) (.memoryBounds s.indexAddress (transferCount x))
  | loadedBlock (x : Nibble) (h : outOfBounds s.indexAddress (transferCount x) = true) :
      FaultCase s (.ldRegs x) (.memoryBounds s.indexAddress (transferCount x))
  | pressed (x : Nibble) (h : 15 < (s.getV x).toNat) : FaultCase s (.skp x) (.badKeyIndex (s.getV x))
  | released (x : Nibble) (h : 15 < (s.getV x).toNat) : FaultCase s (.sknp x) (.badKeyIndex (s.getV x))

/-- In each of the cases of a fault the instruction raises it, since its checked operation does. -/
theorem exec_eq_fault {s : State} {i : Instr} {f : Fault} (h : FaultCase s i f) : exec i s = .fault f := by
  cases h with
  | overflow nnn h => rw [exec_call_checked, push_eq_error.mpr ⟨h, rfl⟩, andThen_error]
  | underflow h => rw [exec_ret_checked, pop_eq_error.mpr ⟨h, rfl⟩, andThen_error]
  | sprite x y n h => rw [exec_drw_checked, memRead_eq_error.mpr ⟨h, rfl⟩, andThen_error]
  | digits x h =>
    have hw : s.memWrite s.indexAddress (bcdDigits (s.getV x)) = _ := memWrite_eq_error.mpr ⟨h, rfl⟩
    rw [exec_ldB_checked, hw]; rfl
  | storedBlock x h =>
    rw [← length_regBlock s x] at h
    rw [exec_stRegs_checked, memWrite_eq_error.mpr ⟨h, rfl⟩, andThen_error, length_regBlock]
  | loadedBlock x h => rw [exec_ldRegs_checked, memRead_eq_error.mpr ⟨h, rfl⟩, andThen_error]
  | pressed x h => rw [exec_skp_checked, keyPressed_eq_error.mpr ⟨h, rfl⟩, andThen_error]
  | released x h => rw [exec_sknp_checked, keyPressed_eq_error.mpr ⟨h, rfl⟩, andThen_error]

/-! ## All answers -/

/-- The answers of an instruction, by what it writes. Where an answer is shared by many instructions the
values it writes are left open; what is known of them for all of those instructions is a hypothesis. -/
inductive ExecCase (s : State) : Instr → Result → Prop
  | wroteReg {i : Instr} {x : Nibble} (b : Byte) (hx : isDestination x i = true) :
      ExecCase s i (.next (s.setV x b).advance)
  | wroteFlagReg {i : Instr} {x : Nibble} (f b : Byte) (hx : isDestination x i = true)
      (hf : writesFlag i = true) : ExecCase s i (.next ((s.setV flagReg f).setV x b).advance)
  | skipped {i : Instr} (c : Bool) : ExecCase s i (.next (s.skipIf c))
  | jumped {i : Instr} (target : Word) (ht : target.toNat ≤ 0x10FE) :
      ExecCase s i (.next (s.setPc target))
  | called (nnn : Addr12) (h : s.sp.val < 16) :
      ExecCase s (.call nnn) (.next ((s.pushed h s.pc).setPc (addressOf nnn)))
  | returned (h : s.sp.val ≠ 0) :
      ExecCase s .ret (.next (s.popped.setPc (s.stack[s.sp.val - 1]'(by omega) + 2)))
  | cleared : ExecCase s .cls (.next (s.setFrame clearFrame).advance)
  | drew (x y n : Nibble) (f : Byte) (fb : Frame) :
      ExecCase s (.drw x y n) (.next ((s.setV flagReg f).setFrame fb).advance)
  | loadedAddress (nnn : Addr12) : ExecCase s (.ldI nnn) (.next (s.setI (addressOf nnn)).advance)
  | loadedGlyph (x : Nibble) : ExecCase s (.ldF x) (.next (s.setI (glyphAddress (s.getV x))).advance)
  | addedIndex (x : Nibble) (t : Nat) (f : Byte) :
      ExecCase s (.addI x) (.next ((s.setI (BitVec.ofNat 16 t &&& 0xFFF)).setV flagReg f).advance)
  | storedDigits (x : Nibble) (h : outOfBounds s.indexAddress 3 = false) :
      ExecCase s (.ldB x) (.next (s.storedAtIndex (bcdDigits (s.getV x))).advance)
  | storedBlock (x : Nibble) (h : outOfBounds s.indexAddress (transferCount x) = false) :
      ExecCase s (.stRegs x) (.next ((s.storedAtIndex (s.regBlock (transferCount x))).advanceIndex
        (transferCount x)).advance)
  | loadedBlock (x : Nibble) (h : outOfBounds s.indexAddress (transferCount x) = false) :
      ExecCase s (.ldRegs x) (.next ((s.setRegBlock (s.mem.readBytes s.indexAddress
        (transferCount x))).advanceIndex (transferCount x)).advance)
  | startedWait (x : Nibble) : ExecCase s (.ldVxK x) (.next (s.setWait ⟨true, x⟩))
  | wroteDelay (x : Nibble) : ExecCase s (.ldDtVx x) (.next (s.setDt (s.getV x)).advance)
  | wroteSound (x : Nibble) : ExecCase s (.ldStVx x) (.next (s.setSt (s.getV x)).advance)
  | diagnosed {i : Instr} (word : Word) (hi : (∃ nnn, i = .sys nnn) ∨ ∃ w, i = .dw w) :
      ExecCase s i (.next (s.emitDiag word).advance)
  | faulted {i : Instr} {f : Fault} (h : FaultCase s i f) : ExecCase s i (.fault f)

/-- The case of an instruction that faults. -/
theorem execCase_of_fault {s : State} {i : Instr} {f : Fault} (h : FaultCase s i f) :
    ExecCase s i (exec i s) := by
  rw [exec_eq_fault h]; exact .faulted h

/-- The target of `Bnnn` is the exact sum, which fits a word (41_control_flow R110, 10_state R28). -/
theorem toNat_jpV0_target (b : Byte) (nnn : Addr12) :
    (b.setWidth 16 + addressOf nnn).toNat = b.toNat + nnn.toNat := by
  have hb := b.isLt
  have hn := nnn.isLt
  rw [BitVec.toNat_add, toNat_addressOf, BitVec.toNat_setWidth]
  omega

/-- What an instruction can answer. -/
theorem exec_cases (i : Instr) (s : State) : ExecCase s i (exec i s) := by
  cases i with
  | cls => exact .cleared
  | ret =>
    by_cases h : s.sp.val = 0
    · exact execCase_of_fault (.underflow h)
    · rw [exec_ret h]; exact .returned h
  | jp nnn =>
    have hn := nnn.isLt
    exact .jumped _ (by rw [toNat_addressOf]; omega)
  | call nnn =>
    by_cases h : s.sp.val < 16
    · rw [exec_call h]; exact .called nnn h
    · exact execCase_of_fault (.overflow nnn (by omega))
  | jpV0 nnn =>
    have hb := (s.getV 0).isLt
    have hn := nnn.isLt
    exact .jumped _ (by rw [toNat_jpV0_target]; omega)
  | seImm x kk => exact .skipped _
  | sneImm x kk => exact .skipped _
  | seReg x y => exact .skipped _
  | sneReg x y => exact .skipped _
  | ldImm x kk => exact .wroteReg _ (beq_self_eq_true x)
  | addImm x kk => exact .wroteReg _ (beq_self_eq_true x)
  | ldReg x y => exact .wroteReg _ (beq_self_eq_true x)
  | orReg x y => exact .wroteReg _ (beq_self_eq_true x)
  | andReg x y => exact .wroteReg _ (beq_self_eq_true x)
  | xorReg x y => exact .wroteReg _ (beq_self_eq_true x)
  | rnd x kk => exact .wroteReg _ (beq_self_eq_true x)
  | ldVxDt x => exact .wroteReg _ (beq_self_eq_true x)
  | addReg x y => exact .wroteFlagReg _ _ (beq_self_eq_true x) rfl
  | subReg x y => exact .wroteFlagReg _ _ (beq_self_eq_true x) rfl
  | shr x y => exact .wroteFlagReg _ _ (beq_self_eq_true x) rfl
  | subnReg x y => exact .wroteFlagReg _ _ (beq_self_eq_true x) rfl
  | shl x y => exact .wroteFlagReg _ _ (beq_self_eq_true x) rfl
  | ldI nnn => exact .loadedAddress nnn
  | ldF x => exact .loadedGlyph x
  | addI x => exact .addedIndex x _ _
  | drw x y n =>
    by_cases h : outOfBounds s.indexAddress n.toNat = true
    · exact execCase_of_fault (.sprite x y n h)
    · rw [exec_drw (Bool.eq_false_iff.mpr h)]; exact .drew x y n _ _
  | skp x =>
    by_cases h : (s.getV x).toNat ≤ 15
    · rw [exec_skp h]; exact .skipped _
    · exact execCase_of_fault (.pressed x (Nat.not_le.mp h))
  | sknp x =>
    by_cases h : (s.getV x).toNat ≤ 15
    · rw [exec_sknp h]; exact .skipped _
    · exact execCase_of_fault (.released x (Nat.not_le.mp h))
  | ldVxK x => exact .startedWait x
  | ldDtVx x => exact .wroteDelay x
  | ldStVx x => exact .wroteSound x
  | ldB x =>
    by_cases h : outOfBounds s.indexAddress 3 = true
    · exact execCase_of_fault (.digits x h)
    · have h := Bool.eq_false_iff.mpr h
      rw [exec_ldB h]; exact .storedDigits x h
  | stRegs x =>
    by_cases h : outOfBounds s.indexAddress (transferCount x) = true
    · exact execCase_of_fault (.storedBlock x h)
    · have h := Bool.eq_false_iff.mpr h
      rw [exec_stRegs h]; exact .storedBlock x h
  | ldRegs x =>
    by_cases h : outOfBounds s.indexAddress (transferCount x) = true
    · exact execCase_of_fault (.loadedBlock x h)
    · have h := Bool.eq_false_iff.mpr h
      rw [exec_ldRegs h]; exact .loadedBlock x h
  | sys nnn => exact .diagnosed _ (.inl ⟨nnn, rfl⟩)
  | dw word => exact .diagnosed _ (.inr ⟨word, rfl⟩)

/-- The case of an instruction that completes. -/
theorem execCase_of_next {i : Instr} {s t : State} (h : exec i s = .next t) : ExecCase s i (.next t) :=
  h ▸ exec_cases i s

/-- An instruction raises a fault exactly in the cases of that fault. -/
theorem exec_eq_fault_iff {i : Instr} {s : State} {f : Fault} : exec i s = .fault f ↔ FaultCase s i f := by
  refine ⟨fun h => ?_, exec_eq_fault⟩
  have hcase : ExecCase s i (.fault f) := h ▸ exec_cases i s
  cases hcase with
  | faulted hfault => exact hfault

/-- No instruction is refused. -/
theorem exec_ne_refused (i : Instr) (s : State) (r : Refusal) : exec i s ≠ .refused r := by
  intro h
  have hcase : ExecCase s i (.refused r) := h ▸ exec_cases i s
  cases hcase

end Sys2Proof.Machine
end

section
/-!
PROOFS. Frames over all instructions (10_state R21 to R42, 20_memory R66) and the faults as tabulated
(60_exceptions R177): each is read off the one case analysis of `exec`.
-/
namespace Sys2Proof.Machine

section
variable {i : Instr} {s t : State}

/-- An instruction leaves the registers that it has not as a destination, VF if it is not written as a side
effect. -/
theorem exec_keeps_reg {z : Nibble} (h : exec i s = .next t) (hz : isDestination z i = false)
    (hf : z = flagReg → writesFlag i = false) : t.getV z = s.getV z := by
  have ne_of_dest {x : Nibble} (hx : isDestination x i = true) : z ≠ x := by
    rintro rfl; simp [hx] at hz
  have ne_flag (hw : writesFlag i = true) : z ≠ flagReg := fun he => by simp [hf he] at hw
  cases execCase_of_next h with
  | wroteReg b hx => exact getV_setV_ne (ne_of_dest hx)
  | wroteFlagReg f b hx hw => exact (getV_setV_ne (ne_of_dest hx)).trans (getV_setV_ne (ne_flag hw))
  | drew x y n f fb => exact getV_setV_ne (s := s) (ne_flag rfl)
  | addedIndex x u f => exact getV_setV_ne (s := s.setI _) (ne_flag rfl)
  | loadedBlock x hb =>
    have hlt : ¬z.toNat < transferCount x := by
      simpa [isDestination, transferCount, Nat.lt_succ_iff] using hz
    simp [getV_setRegBlock, hlt]
  | _ => rfl

/-- A read outside the bytes stored at `I` (20_memory R66). -/
theorem read_storedAtIndex_outside {l : List Byte} {a : Nat}
    (h : a < s.indexAddress ∨ s.indexAddress + l.length ≤ a) :
    (s.storedAtIndex l).mem.read a = s.mem.read a :=
  Memory.read_writeBytes_outside h

/-- An instruction leaves the bytes it does not store to. -/
theorem exec_keeps_byte {a : Nat} (h : exec i s = .next t)
    (ha : ∀ base n, storedBytes i s = some (base, n) → a < base ∨ base + n ≤ a) :
    t.mem.read a = s.mem.read a := by
  cases execCase_of_next h with
  | storedDigits x hb => exact read_storedAtIndex_outside (ha _ _ rfl)
  | storedBlock x hb =>
    exact read_storedAtIndex_outside ((length_regBlock s x).symm ▸ ha _ _ rfl)
  | _ => rfl

/-- The writers of the framebuffer (10_state R35, R37). -/
theorem exec_keeps_frame (h : exec i s = .next t) :
    i = .cls ∨ (∃ x y n, i = .drw x y n) ∨ (t.fb = s.fb ∧ t.frameReady = s.frameReady) := by
  cases execCase_of_next h with
  | cleared => exact .inl rfl
  | drew x y n f fb => exact .inr (.inl ⟨x, y, n, rfl⟩)
  | _ => exact .inr (.inr ⟨rfl, rfl⟩)

/-- The writers of the stack (10_state R31). -/
theorem exec_keeps_stack (h : exec i s = .next t) :
    i = .ret ∨ (∃ nnn, i = .call nnn) ∨ (t.stack = s.stack ∧ t.sp = s.sp) := by
  cases execCase_of_next h with
  | returned hsp => exact .inl rfl
  | called nnn hsp => exact .inr (.inl ⟨nnn, rfl⟩)
  | _ => exact .inr (.inr ⟨rfl, rfl⟩)

/-- The writers of `I` (10_state R29). -/
theorem exec_keeps_index (h : exec i s = .next t) : (∃ nnn, i = .ldI nnn) ∨
    (∃ x, i = .addI x ∨ i = .ldF x ∨ i = .stRegs x ∨ i = .ldRegs x) ∨ t.i = s.i := by
  cases execCase_of_next h with
  | loadedAddress nnn => exact .inl ⟨nnn, rfl⟩
  | addedIndex x u f => exact .inr (.inl ⟨x, .inl rfl⟩)
  | loadedGlyph x => exact .inr (.inl ⟨x, .inr (.inl rfl)⟩)
  | storedBlock x hb => exact .inr (.inl ⟨x, .inr (.inr (.inl rfl))⟩)
  | loadedBlock x hb => exact .inr (.inl ⟨x, .inr (.inr (.inr rfl))⟩)
  | _ => exact .inr (.inr rfl)

/-- The writer of `DT` (10_state R33). -/
theorem exec_keeps_dt (h : exec i s = .next t) : (∃ x, i = .ldDtVx x) ∨ t.dt = s.dt := by
  cases execCase_of_next h with
  | wroteDelay x => exact .inl ⟨x, rfl⟩
  | _ => exact .inr rfl

/-- The writer of `ST` (10_state R34). -/
theorem exec_keeps_st (h : exec i s = .next t) : (∃ x, i = .ldStVx x) ∨ t.st = s.st := by
  cases execCase_of_next h with
  | wroteSound x => exact .inl ⟨x, rfl⟩
  | _ => exact .inr rfl

/-- The instruction that starts a key wait (10_state R40). -/
theorem exec_keeps_wait (h : exec i s = .next t) : (∃ x, i = .ldVxK x) ∨ t.wait = s.wait := by
  cases execCase_of_next h with
  | startedWait x => exact .inl ⟨x, rfl⟩
  | _ => exact .inr rfl

/-- The instructions that drive an output (60_exceptions R190). -/
theorem exec_keeps_out (h : exec i s = .next t) :
    (∃ nnn, i = .sys nnn) ∨ (∃ w, i = .dw w) ∨ t.out = s.out := by
  cases execCase_of_next h with
  | diagnosed word hi => exact hi.imp_right .inl
  | _ => exact .inr (.inr rfl)

/-- The writers of memory (20_memory R66). -/
theorem exec_keeps_mem (h : exec i s = .next t) :
    (∃ x, i = .ldB x ∨ i = .stRegs x) ∨ t.mem = s.mem := by
  cases execCase_of_next h with
  | storedDigits x hb => exact .inl ⟨x, .inl rfl⟩
  | storedBlock x hb => exact .inl ⟨x, .inr rfl⟩
  | _ => exact .inr rfl

/-- What belongs to the scheduler is left by every instruction (10_state R36, R42). -/
theorem exec_keeps_scheduler (h : exec i s = .next t) :
    t.keys = s.keys ∧ t.prevKeys = s.prevKeys ∧ t.zc = s.zc ∧ t.div = s.div ∧ t.status = s.status ∧
    t.config = s.config ∧ t.inputs = s.inputs ∧ t.rnd = s.rnd ∧ t.cycle = s.cycle := by
  cases execCase_of_next h with
  | _ => exact ⟨rfl, rfl, rfl, rfl, rfl, rfl, rfl, rfl, rfl⟩

end

/-- Settles O32: by the cases of `exec`, in each of which the registers written are destinations or VF. -/
theorem registersChangeOnlyAsDestinations : Obligations.RegistersChangeOnlyAsDestinations :=
  fun _ _ _ _ => exec_keeps_reg

/-- Settles O33: by the cases of `exec`, two of which store. -/
theorem memoryChangesOnlyWhereStored : Obligations.MemoryChangesOnlyWhereStored :=
  fun _ _ _ h _ => exec_keeps_byte h

/-- Settles O34: one frame for each component. -/
theorem specialStateChangesOnlyByItsWriters : Obligations.SpecialStateChangesOnlyByItsWriters :=
  fun _ _ _ h => ⟨exec_keeps_frame h, exec_keeps_stack h, exec_keeps_index h, exec_keeps_dt h,
    exec_keeps_st h, exec_keeps_wait h, exec_keeps_out h⟩

/-- Settles O35: by the cases of `exec`, none of which writes what belongs to the scheduler. -/
theorem schedulerStateIsNotWrittenByInstructions : Obligations.SchedulerStateIsNotWrittenByInstructions :=
  fun _ _ _ => exec_keeps_scheduler

/-- The bounds check of a block of registers (43_index_memory R144, R145). -/
theorem outOfBounds_block_iff {addr : Nat} {x : Nibble} :
    outOfBounds addr (transferCount x) = true ↔ 4095 < addr + x.toNat := by
  rw [outOfBounds_iff, transferCount]; omega

/-- The bounds check of three digits (43_index_memory R143). -/
theorem outOfBounds_digits_iff {addr : Nat} : outOfBounds addr 3 = true ↔ 4095 < addr + 2 := by
  rw [outOfBounds_iff]; omega

/-- Settles O36: an instruction raises a fault exactly in the cases of `FaultCase`, which are the rows of the
table. -/
theorem faultsAriseOnlyAsTabulated : Obligations.FaultsAriseOnlyAsTabulated := by
  refine fun i s f => exec_eq_fault_iff.trans ⟨fun h => ?_, ?_⟩
  · cases h with
    | overflow nnn h => exact .inl ⟨⟨nnn, rfl⟩, h, rfl⟩
    | underflow h => exact .inr (.inl ⟨rfl, h, rfl⟩)
    | sprite x y n h =>
      obtain ⟨hn, hb⟩ := outOfBounds_iff.mp h
      exact .inr (.inr (.inl ⟨x, y, n, rfl, hn, hb, rfl⟩))
    | digits x h => exact .inr (.inr (.inr (.inl ⟨⟨x, rfl⟩, outOfBounds_digits_iff.mp h, rfl⟩)))
    | storedBlock x h =>
      exact .inr (.inr (.inr (.inr (.inl ⟨x, .inl rfl, outOfBounds_block_iff.mp h, rfl⟩))))
    | loadedBlock x h =>
      exact .inr (.inr (.inr (.inr (.inl ⟨x, .inr rfl, outOfBounds_block_iff.mp h, rfl⟩))))
    | pressed x h => exact .inr (.inr (.inr (.inr (.inr ⟨x, .inl rfl, h, rfl⟩))))
    | released x h => exact .inr (.inr (.inr (.inr (.inr ⟨x, .inr rfl, h, rfl⟩))))
  · rintro (⟨⟨nnn, rfl⟩, h, rfl⟩ | ⟨rfl, h, rfl⟩ | ⟨x, y, n, rfl, hn, hb, rfl⟩ | ⟨⟨x, rfl⟩, h, rfl⟩ |
      ⟨x, rfl | rfl, h, rfl⟩ | ⟨x, rfl | rfl, h, rfl⟩)
    · exact .overflow nnn h
    · exact .underflow h
    · exact .sprite x y n (outOfBounds_iff.mpr ⟨hn, hb⟩)
    · exact .digits x (outOfBounds_digits_iff.mpr h)
    · exact .storedBlock x (outOfBounds_block_iff.mpr h)
    · exact .loadedBlock x (outOfBounds_block_iff.mpr h)
    · exact .pressed x h
    · exact .released x h

end Sys2Proof.Machine
end

section
/-!
PROOFS. Control flow (41_control_flow R100 to R110) and the key skips (44_keys_timers R150 to R152).
-/
namespace Sys2Proof.Machine

/-! ## Jumps, calls and returns -/

/-- A jump touches `pc` alone. -/
theorem onlyPc_setPc (s : State) (w : Word) : OnlyPc s (s.setPc w) := by rfl

/-- Settles O9: both answer a jump, to targets that are exact as numbers. -/
theorem jumpsSetOnlyPc : Obligations.JumpsSetOnlyPc := by
  refine ⟨encodedBy_plainRow 2 (by decide), encodedBy_upperRow 2 (by decide), fun nnn s => ⟨?_, ?_⟩⟩
  · exact ⟨_, exec_jp nnn s, toNat_addressOf nnn, onlyPc_setPc s _⟩
  · exact ⟨_, exec_jpV0 nnn s, toNat_jpV0_target (s.getV 0) nnn, onlyPc_setPc s _⟩

/-- Settles O10: with room on the stack the answer is the push and the jump, without it the fault. -/
theorem callPushesItsAddress : Obligations.CallPushesItsAddress := by
  refine ⟨encodedBy_plainRow 3 (by decide), fun nnn s => ⟨fun h => ?_, fun h => ?_⟩⟩
  · have hlt : s.sp.val < 16 := by omega
    exact ⟨_, exec_call hlt, Vector.toList_set hlt, rfl, toNat_addressOf nnn, rfl⟩
  · exact exec_eq_fault (.overflow nnn h)

/-- Settles O11: with an entry the answer is the pop and the jump, without one the fault. -/
theorem returnPopsAndAddsTwo : Obligations.ReturnPopsAndAddsTwo := by
  refine ⟨encodedBy_plainRow 1 (by decide), fun s => ⟨fun h => ?_, fun h => ?_⟩⟩
  · exact ⟨_, exec_ret h, rfl, fun _ => rfl, rfl⟩
  · exact exec_eq_fault (.underflow h)

/-- A call that completes had room on the stack. -/
theorem exec_call_next {nnn : Addr12} {s t : State} (h : exec (.call nnn) s = .next t) :
    ∃ hlt : s.sp.val < 16, t = (s.pushed hlt s.pc).setPc (addressOf nnn) := by
  by_cases hlt : s.sp.val < 16
  · rw [exec_call hlt] at h
    exact ⟨hlt, (Host.Outcome.next.inj h).symm⟩
  · rw [exec_eq_fault (.overflow nnn (by omega))] at h
    cases h

/-- Settles O12: the return pops the entry the call pushed, since `STACK` and `SP` are the call's. -/
theorem callThenReturnResumesAfterCall : Obligations.CallThenReturnResumesAfterCall := by
  intro nnn s t u hcall hstack hsp
  obtain ⟨hlt, rfl⟩ := exec_call_next hcall
  have hval : u.sp.val = s.sp.val + 1 := congrArg Fin.val hsp
  refine ⟨_, exec_ret (by omega), ?_, ?_, rfl⟩
  · change u.stack[u.sp.val - 1] + 2 = s.pc + 2
    have hentry : u.stack = s.stack.set s.sp.val s.pc hlt := hstack
    simp [hentry, hval]
  · exact Fin.ext (by change u.sp.val - 1 = s.sp.val; omega)

/-! ## Skips -/

/-- The bits under the mask of the low nibble are those of the low nibble. -/
theorem mask_low_of_fieldN {w : Word} (h : fieldN w = 0) : w &&& 0x000F = 0 := by
  rw [← wordXYN_fields w, h]
  exact eq_of_sixteen_bits (by simp [-BitVec.getLsbD_eq_getElem, BitVec.getLsbD_and, getLsbD_wordXYN])

/-- The words of the families 5 and 9 with nibble 0 not 0 are unrecognized (30_encoding R78). -/
theorem isUnrecognized_of_low {w : Word} (hf : fieldFamily w = 0x5 ∨ fieldFamily w = 0x9)
    (hn : fieldN w ≠ 0) : isUnrecognized w = true := by
  rw [isUnrecognized_fields]
  obtain hf | hf := hf
  · simpa [hf] using hn
  · simpa [hf] using hn

/-- Settles O14: both instructions answer a skip, on `V[x] = V[y]` and on its negation; the words beside them
are on the list of the unrecognized. -/
theorem registerSkipsCompare : Obligations.RegisterSkipsCompare := by
  refine ⟨encodedBy_plainRow 6 (by decide), encodedBy_upperRow 0 (by decide), fun w hf hlow => ?_,
    fun x y s => ⟨?_, ?_⟩⟩
  · have hfamily := hf.imp (mask_F000_iff w 0x5).mp (mask_F000_iff w 0x9).mp
    exact decodeWord_of_unrecognized (isUnrecognized_of_low hfamily fun hn => hlow (mask_low_of_fieldN hn))
  · exact exists_skip (exec_seReg x y s) beq_iff_eq.mpr beq_eq_false_iff_ne.mpr
  · exact exists_skip (exec_sneReg x y s) bne_iff_ne.mpr bne_eq_false_iff_eq.mpr

/-- Settles O28: with a key number both answer a skip, on the key's bit of the latch and on its negation;
without one the fault. -/
theorem keySkipsTestTheLatch : Obligations.KeySkipsTestTheLatch := by
  refine ⟨encodedBy_subRow 0 (by decide), encodedBy_subRow 1 (by decide),
    fun x s => ⟨fun h => ?_, fun h => ?_⟩⟩
  · exact ⟨⟨_, exec_skp h, onlyPc_skipIf s _, State.skipIf_pc s _⟩,
      ⟨_, exec_sknp h, onlyPc_skipIf s _, by simp⟩⟩
  · exact ⟨exec_eq_fault (.pressed x h), exec_eq_fault (.released x h)⟩

end Sys2Proof.Machine
end

section
/-!
PROOFS. The ALU instructions that write VF as a flag (42_alu R126 to R130), and `Cxkk` (R131). The order of
the two writes decides when an operand or the destination is VF, so each proof splits on that.
-/
namespace Sys2Proof.Machine

/-- What an instruction that writes `f` to VF, then `b` to `V[x]`, and moves on does: `V[x]` holds `b`, VF
holds `f` unless it is `V[x]`, and nothing else but `pc` changes. -/
theorem exists_writeFlagReg {i : Instr} {s : State} {x : Nibble} {f b : Byte}
    (hexec : exec i s = .next ((s.setV flagReg f).setV x b).advance) :
    ∃ t, exec i s = .next t ∧ t.getV x = b ∧ (x ≠ flagReg → t.getV flagReg = f) ∧
      OtherRegsButFlagKept s t x ∧ t.pc = s.pc + 2 ∧ OnlyRegsPc s t := by
  refine ⟨_, hexec, getV_setV_self _ x b, fun hx => ?_, fun z hx hf => ?_, rfl, rfl⟩
  · exact (getV_setV_ne hx.symm).trans (getV_setV_self s flagReg f)
  · exact (getV_setV_ne hx).trans (getV_setV_ne hf)

/-- The carry as a number. -/
theorem toNat_carryFlag (a b : Byte) : (carryFlag a b).toNat = if a.toNat + b.toNat > 255 then 1 else 0 := by
  simp [carryFlag]

/-- The flag of `8xy5` as a number. -/
theorem toNat_noBorrowFlag (a b : Byte) : (noBorrowFlag a b).toNat = if a.toNat ≥ b.toNat then 1 else 0 := by
  simp [noBorrowFlag]

/-- The flag of `8xy7` as a number. -/
theorem toNat_greaterFlag (a b : Byte) : (greaterFlag a b).toNat = if a.toNat > b.toNat then 1 else 0 := by
  simp [greaterFlag]

/-- The difference of two registers read after `f` was written to VF: an operand that is VF is `f`, and VF
minus VF is 0. -/
theorem difference_after_flag (s : State) (f : Byte) (p q : Nibble) :
    let d := subBytes ((s.setV flagReg f).getV p) ((s.setV flagReg f).getV q)
    (p ≠ flagReg → q ≠ flagReg → d.toNat = ((s.getV p).toNat + 256 - (s.getV q).toNat) % 256) ∧
    (p ≠ flagReg → q = flagReg → d.toNat = ((s.getV p).toNat + 256 - f.toNat) % 256) ∧
    (p = flagReg → q ≠ flagReg → d.toNat = (f.toNat + 256 - (s.getV q).toNat) % 256) ∧
    (p = flagReg → q = flagReg → d = 0) := by
  refine ⟨fun hp hq => ?_, fun hp hq => ?_, fun hp hq => ?_, fun hp hq => ?_⟩
  · rw [toNat_subBytes, getV_setV_ne hp, getV_setV_ne hq]
  · rw [toNat_subBytes, getV_setV_ne hp, hq, getV_setV_self]
  · rw [toNat_subBytes, getV_setV_ne hq, hp, getV_setV_self]
  · refine BitVec.eq_of_toNat_eq ?_
    rw [toNat_subBytes, hp, hq, Nat.add_sub_cancel_left]
    rfl

/-- Settles O18: the sum is taken before VF is written, and written after it. -/
theorem addRegistersSetsCarry : Obligations.AddRegistersSetsCarry := by
  refine ⟨encodedBy_aluRow 4 (by decide), fun x y s => ?_⟩
  obtain ⟨t, hexec, hx, hf, hrest⟩ := exists_writeFlagReg (exec_addReg x y s)
  refine ⟨t, hexec, ?_, fun hxf => ?_, hrest⟩
  · rw [hx, toNat_addBytes]
  · rw [hf hxf, toNat_carryFlag]

/-- Settles O19: the flag is written first, so an operand that is VF is the flag. -/
theorem subtractSetsNoBorrow : Obligations.SubtractSetsNoBorrow := by
  refine ⟨encodedBy_aluRow 5 (by decide), fun x y s => ?_⟩
  obtain ⟨t, hexec, hx, hf, hrest⟩ := exists_writeFlagReg (exec_subReg x y s)
  obtain ⟨hnone, hsub, hmin, hboth⟩ := difference_after_flag s (noBorrowFlag (s.getV x) (s.getV y)) x y
  refine ⟨t, hexec, ?_, hrest⟩
  rw [← toNat_noBorrowFlag]
  refine ⟨fun hxf hyf => ?_, fun hxf hyf => ?_, fun hxf hyf => ?_, fun hxf hyf => ?_⟩
  · rw [hf hxf, hx]; exact ⟨rfl, hnone hxf hyf⟩
  · rw [hf hxf, hx]; exact ⟨rfl, hsub hxf hyf⟩
  · rw [← hxf, hx]; exact hmin hxf hyf
  · rw [← hxf, hx]; exact hboth hxf hyf

/-- Settles O20: as `8xy5` with the operands exchanged and the flag of `8xy7`. -/
theorem reverseSubtractSetsGreater : Obligations.ReverseSubtractSetsGreater := by
  refine ⟨encodedBy_aluRow 7 (by decide), fun x y s => ?_⟩
  obtain ⟨t, hexec, hx, hf, hrest⟩ := exists_writeFlagReg (exec_subnReg x y s)
  obtain ⟨hnone, hsub, hmin, hboth⟩ := difference_after_flag s (greaterFlag (s.getV x) (s.getV y)) y x
  refine ⟨t, hexec, ?_, hrest⟩
  rw [← toNat_greaterFlag]
  refine ⟨fun hxf hyf => ?_, fun hxf hyf => ?_, fun hxf hyf => ?_, fun hxf hyf => ?_⟩
  · rw [hf hxf, hx]; exact ⟨rfl, hnone hyf hxf⟩
  · rw [hf hxf, hx]; exact ⟨rfl, hmin hyf hxf⟩
  · rw [← hxf, hx]; exact hsub hyf hxf
  · rw [← hxf, hx]; exact hboth hyf hxf

/-- Settles O21: the flag is written first, so with VF as `V[x]` it is the flag that is shifted. -/
theorem shiftsMoveOneBitToFlag : Obligations.ShiftsMoveOneBitToFlag := by
  refine ⟨encodedBy_aluRow 6 (by decide), encodedBy_aluRow 8 (by decide), fun x y s => ⟨?_, ?_⟩⟩
  · obtain ⟨t, hexec, hx, hf, hrest⟩ := exists_writeFlagReg (exec_shr x y s)
    refine ⟨t, hexec, fun hxf => ?_, fun hxf => ?_, hrest⟩
    · rw [hf hxf, hx, toNat_lowBitFlag, toNat_shiftRightOne, getV_setV_ne hxf]
      exact ⟨rfl, rfl⟩
    · refine BitVec.eq_of_toNat_eq ?_
      rw [← hxf, hx, toNat_shiftRightOne, hxf, getV_setV_self, toNat_lowBitFlag]
      exact Nat.div_eq_of_lt (Nat.mod_lt _ (by decide))
  · obtain ⟨t, hexec, hx, hf, hrest⟩ := exists_writeFlagReg (exec_shl x y s)
    refine ⟨t, hexec, fun hxf => ?_, fun hxf => ?_, hrest⟩
    · rw [hf hxf, hx, toNat_highBitFlag, toNat_shiftLeftOne, getV_setV_ne hxf]
      exact ⟨rfl, rfl⟩
    · rw [← hxf, hx, toNat_shiftLeftOne, hxf, getV_setV_self, toNat_highBitFlag]
      have := (s.getV flagReg).isLt
      omega

/-- Settles O22: the one register write is of the byte the cycle sampled, cut by the immediate bit by bit. -/
theorem randomIsInputAndImmediate : Obligations.RandomIsInputAndImmediate := by
  refine ⟨encodedBy_upperRow 3 (by decide), State.atExecute_rnd, fun x kk s => ?_⟩
  exact exists_writeReg (P := fun b => ∀ k, b.getLsbD k = (s.rnd.getLsbD k && kk.getLsbD k))
    (exec_rnd x kk s) fun _ => BitVec.getLsbD_and

end Sys2Proof.Machine
end

section
/-!
PROOFS. Memory as data (20_memory R50 to R56): reads after writes, and that a canonical memory is fixed by
its reads.
-/
namespace Sys2Proof.Machine

namespace Memory

/-- The parts of the canonical form of a memory with a first cell. -/
theorem wfFrom_cons {lo a : Nat} {v : Byte} {m : Memory} : wfFrom lo ((a, v) :: m) = true ↔
    lo ≤ a ∧ a ≤ lastAddress ∧ v ≠ unlistedByte a ∧ wfFrom (a + 1) m = true := by
  simp [wfFrom, and_assoc]

@[simp] theorem read_cons_self (a : Nat) (v : Byte) (m : Memory) : read ((a, v) :: m) a = v := by
  simp [read]

theorem read_cons_ne {a b : Nat} {v : Byte} {m : Memory} (h : a ≠ b) : read ((a, v) :: m) b = read m b := by
  simp [read, h]

/-- The first cell of a canonical memory is seen by a read. -/
theorem read_ne_unlisted {lo a : Nat} {v : Byte} {m : Memory} (h : wfFrom lo ((a, v) :: m) = true) :
    read ((a, v) :: m) a ≠ unlistedByte a := by
  rw [read_cons_self]; exact (wfFrom_cons.mp h).2.2.1

/-- Canonical memories that read alike have their first cells at one address: the lower of two would be seen
by a read of one memory and not of the other. -/
theorem first_le_of_reads {lo a b : Nat} {v w : Byte} {m m' : Memory}
    (hm : wfFrom lo ((a, v) :: m) = true) (hm' : wfFrom lo ((b, w) :: m') = true)
    (h : ∀ c, c ≤ lastAddress → read ((a, v) :: m) c = read ((b, w) :: m') c) : b ≤ a := by
  refine Nat.le_of_not_lt fun hlt => read_ne_unlisted hm ?_
  obtain ⟨-, ha, -⟩ := wfFrom_cons.mp hm
  obtain ⟨-, hb, hv, hrest⟩ := wfFrom_cons.mp hm'
  rw [h a ha]
  exact read_below (lo := b) (wfFrom_cons.mpr ⟨Nat.le_refl b, hb, hv, hrest⟩) hlt

/-- A canonical memory with a cell does not read as the empty one. -/
theorem reads_ne_nil {lo a : Nat} {v : Byte} {m : Memory} (hm : wfFrom lo ((a, v) :: m) = true) :
    ¬∀ c, c ≤ lastAddress → read ((a, v) :: m) c = read [] c :=
  fun h => read_ne_unlisted hm (h a (wfFrom_cons.mp hm).2.1)

/-- Canonical memories that read alike are the same data. -/
theorem eq_of_reads {m m' : Memory} {lo : Nat} (hm : wfFrom lo m = true) (hm' : wfFrom lo m' = true)
    (h : ∀ c, c ≤ lastAddress → read m c = read m' c) : m = m' := by
  induction m generalizing m' lo with
  | nil =>
    cases m' with
    | nil => rfl
    | cons p m' => exact absurd (fun c hc => (h c hc).symm) (reads_ne_nil hm')
  | cons p m ih =>
    cases m' with
    | nil => exact absurd h (reads_ne_nil hm)
    | cons p' m' =>
      obtain ⟨a, v⟩ := p
      obtain ⟨b, w⟩ := p'
      obtain rfl : a = b := Nat.le_antisymm
        (first_le_of_reads hm' hm fun c hc => (h c hc).symm) (first_le_of_reads hm hm' h)
      obtain ⟨-, ha, -, hrest⟩ := wfFrom_cons.mp hm
      obtain ⟨-, -, -, hrest'⟩ := wfFrom_cons.mp hm'
      obtain rfl : v = w := by simpa using h a ha
      have htail : m = m' := ih hrest hrest' fun c hc => ?_
      · rw [htail]
      · by_cases hca : a = c
        · subst hca
          rw [read_below hrest (Nat.lt_succ_self a), read_below hrest' (Nat.lt_succ_self a)]
        · simpa [read_cons_ne hca] using h c hc

end Memory

/-- Settles O55: by the read after a write, at its address and at another. -/
theorem readGivesLastByteWritten : Obligations.ReadGivesLastByteWritten := by
  refine fun m a b v => ⟨?_, fun h => ?_, Memory.wf_write⟩
  · rw [Memory.read_write, if_pos rfl]
  · rw [Memory.read_write, if_neg h.symm]

/-- Settles O56: by induction on the two lists of cells, whose first cells agree. -/
theorem equalMemoriesAreEqualData : Obligations.EqualMemoriesAreEqualData :=
  fun _ _ => Memory.eq_of_reads

end Sys2Proof.Machine
end

section
/-!
PROOFS. The instructions that access memory through `I` (43_index_memory R143 to R145) and the next fetch
(20_memory R62).
-/
namespace Sys2Proof.Machine

section
variable {s : State} {x : Nibble}

/-- The bytes of a block stored at `I` are the registers (43_index_memory R144). -/
theorem read_stored_regBlock (s : State) {x z : Nibble} (hz : z.toNat ≤ x.toNat) :
    (s.storedAtIndex (s.regBlock (transferCount x))).mem.read (s.indexAddress + z.toNat) = s.getV z := by
  have hlt : z.toNat < (s.regBlock (transferCount x)).length := by
    rw [length_regBlock, transferCount]; omega
  exact (Memory.read_writeBytes_inside hlt).trans (getElem_regBlock s _ z hlt)

/-- The registers of a block loaded from `I` are the bytes (43_index_memory R145). -/
theorem getV_loaded_block (s : State) (x z : Nibble) :
    (s.setRegBlock (s.mem.readBytes s.indexAddress (transferCount x))).getV z =
      if z.toNat ≤ x.toNat then s.mem.read (s.indexAddress + z.toNat) else s.getV z := by
  rw [getV_setRegBlock, Memory.length_readBytes]
  simp only [transferCount, Nat.lt_succ_iff]
  split
  next hz =>
    have hlt : z.toNat < (s.mem.readBytes s.indexAddress (x.toNat + 1)).length := by
      rw [Memory.length_readBytes]; omega
    rw [← Memory.getElem_readBytes _ _ _ _ hlt]
    simp only [List.getD_eq_getElem?_getD, List.getElem?_eq_getElem hlt, Option.getD_some]
  next => rfl

/-- `I` after a block transfer in bounds, in the form of the statements. -/
theorem toNat_advanceIndex_block {s : State} {x : Nibble} (h : s.i.toNat + x.toNat ≤ 4095) :
    (s.advanceIndex (transferCount x)).i.toNat =
      if s.config.iMaskAfterTransfer then (s.i.toNat + x.toNat + 1) % 4096 else s.i.toNat + x.toNat + 1 :=
  toNat_advanceIndex (n := transferCount x) (by rw [transferCount]; omega)

/-- A block that ends inside memory is in bounds. -/
theorem block_inBounds (h : s.i.toNat + x.toNat ≤ 4095) :
    outOfBounds s.indexAddress (transferCount x) = false :=
  Bool.eq_false_iff.mpr fun hb => absurd (outOfBounds_block_iff.mp hb) (Nat.not_lt.mpr h)

end

/-- Settles O25: in bounds the answer is the store of the three digits, out of bounds the fault. -/
theorem decimalStoresThreeDigits : Obligations.DecimalStoresThreeDigits := by
  refine ⟨encodedBy_subRow 8 (by decide), fun x s => ⟨fun h => ?_, fun h => ?_⟩⟩
  · have hb : outOfBounds s.indexAddress 3 = false :=
      Bool.eq_false_iff.mpr fun hb => absurd (outOfBounds_digits_iff.mp hb) (Nat.not_lt.mpr h)
    have hv := (s.getV x).isLt
    have digit (k : Nat) (hk : k < 3) : (s.storedAtIndex (bcdDigits (s.getV x))).advance.mem.read
        (s.indexAddress + k) = (bcdDigits (s.getV x))[k]'hk := Memory.read_writeBytes_inside hk
    refine ⟨_, exec_ldB hb, ?_, ?_, ?_, fun a ha => read_storedAtIndex_outside ha, rfl, rfl⟩
    · rw [← Nat.add_zero s.indexAddress, digit 0 (by decide)]
      simp [bcdDigits]; omega
    · rw [digit 1 (by decide)]
      simp [bcdDigits]; omega
    · rw [digit 2 (by decide)]
      simp [bcdDigits]; omega
  · exact exec_eq_fault (.digits x (outOfBounds_digits_iff.mpr h))

/-- Settles O26: in bounds the answer is the store of the block, out of bounds the fault. -/
theorem storeBlockWritesRegisters : Obligations.StoreBlockWritesRegisters := by
  refine ⟨encodedBy_subRow 9 (by decide), fun x s => ⟨fun h => ?_, fun h => ?_⟩⟩
  · refine ⟨_, exec_stRegs (block_inBounds h), fun z hz => read_stored_regBlock s hz, fun a ha => ?_,
      toNat_advanceIndex_block h, rfl, rfl⟩
    exact read_storedAtIndex_outside ((length_regBlock s x).symm ▸ ha)
  · exact exec_eq_fault (.storedBlock x (outOfBounds_block_iff.mpr h))

/-- Settles O27: in bounds the answer is the load of the block, out of bounds the fault. -/
theorem loadBlockReadsRegisters : Obligations.LoadBlockReadsRegisters := by
  refine ⟨encodedBy_subRow 10 (by decide), fun x s => ⟨fun h => ?_, fun h => ?_⟩⟩
  · refine ⟨_, exec_ldRegs (block_inBounds h), fun z hz => ?_, fun z hz => ?_,
      toNat_advanceIndex_block h, rfl, rfl⟩
    · exact (getV_loaded_block s x z).trans (if_pos hz)
    · exact (getV_loaded_block s x z).trans (if_neg (Nat.not_le.mpr hz))
  · exact exec_eq_fault (.loadedBlock x (outOfBounds_block_iff.mpr h))

/-- A block store that completes was in bounds. -/
theorem exec_stRegs_next {x : Nibble} {s t : State} (h : exec (.stRegs x) s = .next t) :
    t = ((s.storedAtIndex (s.regBlock (transferCount x))).advanceIndex (transferCount x)).advance := by
  by_cases hb : outOfBounds s.indexAddress (transferCount x) = true
  · rw [exec_eq_fault (.storedBlock x hb)] at h
    cases h
  · rw [exec_stRegs (Bool.eq_false_iff.mpr hb)] at h
    exact (Host.Outcome.next.inj h).symm

/-- Settles O57: the fetch reads two bytes of the stored block, which are two registers in a row. -/
theorem storeIsSeenByNextFetch : Obligations.StoreIsSeenByNextFetch := by
  intro x z z' s t hexec hz' hx hpc
  obtain rfl := exec_stRegs_next hexec
  have hhi := read_stored_regBlock s (x := x) (z := z) (by omega)
  have hlo := read_stored_regBlock s (x := x) (z := z') hx
  rw [hz', ← Nat.add_assoc] at hlo
  rw [State.fetchWord, hpc]
  exact congr (congrArg wordOfBytes hhi) hlo

end Sys2Proof.Machine
end

section
/-!
PROOFS. `Dxyn` (40_display R91 to R95): the drawing loop in closed form, read in terms of the bytes at `I`.
-/
namespace Sys2Proof.Machine

/-- Row `j` of the sprite is the byte at `I + j`. -/
theorem getElem?_readBytes (m : Memory) (a n j : Nat) :
    (m.readBytes a n)[j]? = if j < n then some (m.read (a + j)) else none := by
  split
  next h =>
    have hlt : j < (m.readBytes a n).length := by rwa [Memory.length_readBytes]
    rw [List.getElem?_eq_getElem hlt, Memory.getElem_readBytes]
  next h => exact List.getElem?_eq_none (by rw [Memory.length_readBytes]; omega)

/-- The check of the drawing loop on the sprite at `I` is the cover of the statements (40_display R92). -/
theorem covered_iff {s : State} {x y n : Nibble} {c r : Nat} :
    covered (s.mem.readBytes s.indexAddress n.toNat) (s.getV x).toNat (s.getV y).toNat c r = true ↔
      SpriteCovers s x y n c r := by
  simp only [covered, getElem?_readBytes, Bool.and_eq_true, decide_eq_true_eq]
  constructor
  · rintro ⟨⟨⟨hleft, hright⟩, htop⟩, hbit⟩
    split at hbit
    next b hb =>
      split at hb
      next hj =>
        obtain rfl := Option.some.inj hb
        exact ⟨_, hj, _, by omega, hbit, by omega, by omega⟩
      next => cases hb
    next => cases hbit
  · rintro ⟨j, hj, k, hk, hbit, rfl, rfl⟩
    refine ⟨⟨⟨by omega, by omega⟩, by omega⟩, ?_⟩
    rw [Nat.add_sub_cancel_left, Nat.add_sub_cancel_left, if_pos hj]
    exact hbit

/-- The buffer's coordinates (40_display R93). -/
theorem onScreen_iff {c r : Nat} : onScreen c r = true ↔ c ≤ 63 ∧ r ≤ 31 := by simp [onScreen]

section
variable {s : State} {x y n : Nibble} {c r : Nat}

/-- A covered pixel of the buffer is toggled (40_display R91). -/
theorem pixel_drawn_of_covers (hc : c ≤ 63) (hr : r ≤ 31) (h : SpriteCovers s x y n c r) :
    pixel (s.drawn x y n).1 c r = !pixel s.fb c r := by
  rw [State.drawn, pixel_drawRows, onScreen_iff.mpr ⟨hc, hr⟩, covered_iff.mpr h]
  simp

/-- A pixel that is not covered stays (40_display R91). -/
theorem pixel_drawn_of_not_covers (h : ¬SpriteCovers s x y n c r) :
    pixel (s.drawn x y n).1 c r = pixel s.fb c r := by
  rw [State.drawn, pixel_drawRows, Bool.eq_false_iff.mpr (mt covered_iff.mp h)]
  simp

/-- A draw collides: a covered pixel of the buffer that was lit (40_display R94). -/
def Collides (s : State) (x y n : Nibble) : Prop :=
  ∃ c r : Nat, c ≤ 63 ∧ r ≤ 31 ∧ SpriteCovers s x y n c r ∧ pixel s.fb c r = true

/-- The collision flag of the drawing loop says whether the draw collides (40_display R94). -/
theorem drawn_hit_iff : (s.drawn x y n).2 = true ↔ Collides s x y n := by
  rw [State.drawn, hit_drawRows]
  simp only [Bool.false_eq_true, false_or, onScreen_iff, covered_iff, Collides, and_assoc]

/-- The flag of a draw that collides. -/
theorem collisionFlag_of_collides (h : Collides s x y n) : collisionFlag (s.drawn x y n).2 = 1 := by
  rw [drawn_hit_iff.mpr h]; rfl

/-- The flag of a draw that does not. -/
theorem collisionFlag_of_not_collides (h : ¬Collides s x y n) : collisionFlag (s.drawn x y n).2 = 0 := by
  rw [Bool.eq_false_iff.mpr (mt drawn_hit_iff.mp h)]; rfl

/-- The flag of a draw is 1 exactly when it collides. -/
theorem collisionFlag_eq_one_iff : collisionFlag (s.drawn x y n).2 = 1 ↔ Collides s x y n := by
  refine ⟨fun h => Classical.byContradiction fun hn => ?_, collisionFlag_of_collides⟩
  rw [collisionFlag_of_not_collides hn] at h
  cases h

/-- VF after a draw. -/
theorem getV_flag_drawn (s : State) (b : Byte) (fb : Frame) :
    ((s.setV flagReg b).setFrame fb).advance.getV flagReg = b := by
  rw [getV_advance, getV_setFrame, getV_setV_self]

/-- A draw that completes had its sprite in memory. -/
theorem exec_drw_next {t : State} (h : exec (.drw x y n) s = .next t) :
    outOfBounds s.indexAddress n.toNat = false ∧
    t = ((s.setV flagReg (collisionFlag (s.drawn x y n).2)).setFrame (s.drawn x y n).1).advance := by
  by_cases hb : outOfBounds s.indexAddress n.toNat = true
  · rw [exec_eq_fault (.sprite x y n hb)] at h
    cases h
  · have hb := Bool.eq_false_iff.mpr hb
    rw [exec_drw hb] at h
    exact ⟨hb, (Host.Outcome.next.inj h).symm⟩

end

/-- Settles O7: in bounds the answer is the drawn framebuffer, whose pixels and collision have a closed form;
out of bounds it is the fault. -/
theorem drawTogglesCoveredPixels : Obligations.DrawTogglesCoveredPixels := by
  refine ⟨encodedBy_upperRow 4 (by decide), fun x y n s => ⟨fun h => ?_, fun h => ?_⟩⟩
  · have hb : outOfBounds s.indexAddress n.toNat = false := by
      rw [outOfBounds_false, State.indexAddress]; omega
    refine ⟨_, exec_drw hb, fun c r hc hr => ⟨pixel_drawn_of_covers hc hr, pixel_drawn_of_not_covers⟩,
      fun hhit => ?_, fun hhit => ?_, fun z hz => getV_setV_ne (s := s) hz, rfl, rfl, rfl⟩
    · rw [getV_flag_drawn]; exact collisionFlag_of_collides hhit
    · rw [getV_flag_drawn]; exact collisionFlag_of_not_collides hhit
  · exact exec_eq_fault (.sprite x y n (outOfBounds_iff.mpr h))

/-- The cover of a sprite is fixed by `I`, the two coordinates and the sprite's bytes. -/
theorem spriteCovers_congr {s s1 : State} {x y n : Nibble} (hi : s1.i = s.i)
    (hx : s1.getV x = s.getV x) (hy : s1.getV y = s.getV y)
    (hmem : ∀ j, j < n.toNat → s1.mem.read (s.i.toNat + j) = s.mem.read (s.i.toNat + j)) (c r : Nat) :
    SpriteCovers s1 x y n c r ↔ SpriteCovers s x y n c r := by
  simp only [SpriteCovers, hi, hx, hy]
  refine exists_congr fun j => and_congr_right fun hj => ?_
  rw [hmem j hj]

/-- A draw turns a pixel of the buffer on exactly where it is covered and lit after the draw. -/
theorem turnedOn_iff {s : State} {x y n : Nibble} {c r : Nat} (hc : c ≤ 63) (hr : r ≤ 31) :
    (SpriteCovers s x y n c r ∧ pixel (s.drawn x y n).1 c r = true) ↔
      pixel s.fb c r = false ∧ pixel (s.drawn x y n).1 c r = true := by
  refine and_congr_left fun hlit => ?_
  by_cases h : SpriteCovers s x y n c r
  · rw [pixel_drawn_of_covers hc hr h] at hlit
    simpa [h] using hlit
  · rw [pixel_drawn_of_not_covers h] at hlit
    simp [h, hlit]

/-- Settles O8: both draws cover the same pixels, so a covered pixel is toggled twice, and the second draw
collides where the first turned a pixel on. -/
theorem drawingTwiceRestoresFramebuffer : Obligations.DrawingTwiceRestoresFramebuffer := by
  intro x y n s t s1 hexec hfb hi hx hy hmem
  obtain ⟨hb, rfl⟩ := exec_drw_next hexec
  have hfb : s1.fb = (s.drawn x y n).1 := hfb
  have hcover := spriteCovers_congr hi hx hy hmem
  have hb1 : outOfBounds s1.indexAddress n.toNat = false := by rwa [State.indexAddress, hi]
  refine ⟨_, exec_drw hb1, frame_ext fun c r hc hr => ?_, ?_, ?_⟩
  · change pixel (s1.drawn x y n).1 c r = _
    by_cases h : SpriteCovers s x y n c r
    · rw [pixel_drawn_of_covers (by omega) (by omega) ((hcover c r).mpr h), hfb,
        pixel_drawn_of_covers (by omega) (by omega) h, Bool.not_not]
    · rw [pixel_drawn_of_not_covers (mt (hcover c r).mp h), hfb, pixel_drawn_of_not_covers h]
  · rw [getV_flag_drawn, collisionFlag_eq_one_iff, Collides]
    refine exists₂_congr fun c r => and_congr_right fun hc => and_congr_right fun hr => ?_
    rw [hcover, hfb]
    exact turnedOn_iff hc hr
  · rw [getV_flag_drawn]
    by_cases h : Collides s1 x y n
    · exact .inl (collisionFlag_of_collides h)
    · exact .inr (collisionFlag_of_not_collides h)

end Sys2Proof.Machine
end

section
/-!
PROOFS. The timer moves and the key wait (44_keys_timers R153 to R156), SYS and the unrecognized words
(45_unrecognized R160, R162).
-/
namespace Sys2Proof.Machine

/-- Settles O30: each is one copy of a byte, to a register, to `DT` and to `ST`. -/
theorem timerMovesCopyOneByte : Obligations.TimerMovesCopyOneByte := by
  refine ⟨encodedBy_subRow 2 (by decide), encodedBy_subRow 4 (by decide), encodedBy_subRow 5 (by decide),
    fun x s => ⟨?_, ?_, ?_⟩⟩
  · exact exists_writeReg (P := (· = s.dt)) (exec_ldVxDt x s) rfl
  · exact ⟨_, exec_ldDtVx x s, rfl, rfl, rfl⟩
  · exact ⟨_, exec_ldStVx x s, rfl, rfl, rfl⟩

/-- The address of a SYS is its word (30_encoding R72). -/
theorem addressOf_eq_wordA (nnn : Addr12) : addressOf nnn = wordA 0 nnn :=
  eq_of_sixteen_bits (by simp [-BitVec.getLsbD_eq_getElem, addressOf, getLsbD_wordA])

/-- Settles O31: both answer a diagnostic of their word and move on. -/
theorem unrecognizedWordsOnlyDiagnose : Obligations.UnrecognizedWordsOnlyDiagnose := by
  refine ⟨fun nnn s => ?_, fun word s => ⟨_, exec_dw word s, rfl, rfl, rfl⟩⟩
  refine ⟨_, exec_sys nnn s, ?_, rfl, rfl⟩
  rw [State.advance_out, State.emitDiag_out, addressOf_eq_wordA]; rfl

/-! ## The key wait -/

/-- A key is new in the cycle after `s` exactly when it is pressed in that cycle's latch and was released in
the one before. -/
theorem newKey_iff (s : State) (k : Nat) : s.afterLatch.newKeys.getLsbD k = true ↔
    s.nextInput.keys.getLsbD k = true ∧ s.keys.getLsbD k = false := by
  rw [getLsbD_newKeys, Bool.and_eq_true, Bool.not_eq_true']
  rfl

/-- A cycle of the wait latches the keys and performs the completion check (60_exceptions R174). -/
theorem step_waits {s : State} (h : s.status = .running) (hs : s.nextInput.stop = false)
    (hw : s.wait.active = true) : step s = .next s.afterLatch.checkKeyWait.endCycle := by
  rw [step_waited h hs hw, latch_beginCycle]

/-- Settles O29: the completion check on the keys new in the cycle, and the choice among them. -/
theorem keyWaitEndsOnNewKey : Obligations.KeyWaitEndsOnNewKey := by
  refine ⟨encodedBy_subRow 3 (by decide), fun x s => ⟨_, exec_ldVxK x s, rfl, rfl⟩, fun s h hs hw => ?_⟩
  rw [step_waits h hs hw]
  refine ⟨fun hnone => ?_, fun hsome => ?_⟩
  · have hzero : s.afterLatch.newKeys = 0 := Classical.byContradiction fun hne => by
      obtain ⟨k, hk⟩ := keys_ne_zero.mp hne
      exact hnone k ((newKey_iff s k).mp hk)
    rw [checkKeyWait_idle hzero]
  · simp only [← newKey_iff] at hsome
    obtain ⟨hmem, hlowest⟩ := lowestKey_spec hsome
    refine ⟨chooseKey s.config s.afterLatch.newKeys, ?_⟩
    rw [← and_assoc, ← newKey_iff, ← newKeys_afterLatch]
    refine ⟨chooseKey_mem hsome, fun j hj hpressed hreleased => ?_, fun hno j hpressed hreleased => ?_, ?_⟩
    · exact chooseKey_of_lookup hj ((newKey_iff s j.toNat).mpr ⟨hpressed, hreleased⟩)
    · have hnone (j : Nibble) (hj : s.config.keyChoice.lookup s.afterLatch.newKeys = some j) :
          s.afterLatch.newKeys.getLsbD j.toNat = false :=
        Bool.eq_false_iff.mpr fun hnew => hno j hj ((newKey_iff s _).mp hnew)
      rw [chooseKey_of_no_member hnone]
      exact hlowest j ((newKey_iff s j).mpr ⟨hpressed, hreleased⟩)
    · rw [checkKeyWait_done (keys_ne_zero.mpr hsome)]
      rfl

end Sys2Proof.Machine
end

section
/-!
PROOFS. The cycle (60_exceptions R170 to R191): what a step answers, what it keeps, and how it ends a run.
-/
namespace Sys2Proof.Machine

/-! ## Every step answers a next state -/

/-- The case of a step that answers a state. -/
theorem stepCase_of_next {s t : State} (h : step s = .next t) : StepCase s (.next t) := h ▸ step_cases s

/-- Settles O38: by the cases of `step`, the only other one being a refusal, which no instruction makes. -/
theorem everyStepAnswersNext : Obligations.EveryStepAnswersNext := by
  intro s
  have hcase := step_cases s
  generalize step s = r at hcase
  cases hcase with
  | refused hr hz he => exact absurd he (exec_ne_refused _ _ _)
  | _ => exact ⟨_, rfl⟩

/-! ## Steps that execute -/

/-- An instruction that completes is followed by the end of the cycle (60_exceptions R170). -/
theorem runInstruction_next {w : Word} {s t : State} (h : exec (decodeWord w) s = .next t) :
    runInstruction w s = .next t.endCycle := by
  simp only [runInstruction, h]

/-- An instruction that raises a fault ends the run (60_exceptions R178). -/
theorem runInstruction_fault {w : Word} {s : State} {f : Fault} (h : exec (decodeWord w) s = .fault f) :
    runInstruction w s = .next (s.takeFault f (some w)) := by
  simp only [runInstruction, h]

/-- Settles O37: the bytes at `pc` are the fetched word, whose instruction runs between the count and the end
of the cycle. -/
theorem stepRunsDecodedInstruction : Obligations.StepRunsDecodedInstruction := by
  intro s i hruns hz hdec
  obtain rfl : decodeWord s.fetchWord = i := by
    rw [decode_two] at hdec
    exact congrArg Prod.fst (Except.ok.inj hdec)
  obtain ⟨hwf, hencode⟩ := decodeWord_reads s.fetchWord
  refine ⟨hwf, rfl, ?_⟩
  rw [step_executes hruns hz, hencode, runInstruction]
  cases exec (decodeWord s.fetchWord) s.atExecute <;> rfl

/-! ## The end of a run -/

/-- A run of one more step, by its first step. -/
theorem run_succ {M : Host.Core} {s t : M.State} (h : M.step s = .next t) (k : Nat) :
    M.run (k + 1) s = M.run k t := by
  rw [Host.Core.run, h]

/-- Settles O44: a terminal state steps to itself with nothing driven, and that state is terminal too. -/
theorem terminalStatesAreAbsorbing : Obligations.TerminalStatesAreAbsorbing := by
  intro s k h
  rw [run_succ (M := core) (step_terminal h)]
  induction k generalizing s with
  | zero => rfl
  | succ k ih =>
    have hquiet : ({ s with out := Outputs.quiet } : State).status ≠ .running := h
    rw [run_succ (M := core) (step_terminal hquiet)]
    exact ih _ h

/-- Settles O45: the stop is seen before the latch. -/
theorem stopEndsRunWithStateUnchanged : Obligations.StopEndsRunWithStateUnchanged :=
  fun _ h hs => step_stopped h hs

/-- Any word but the tenth zero word leaves the halt detector below 10 or clears it (60_exceptions R191). -/
theorem atExecute_zc_ne_ten {s : State} (h : ¬(s.fetchWord = 0 ∧ s.zc = 9)) : s.atExecute.zc ≠ 10 := by
  rw [State.atExecute_zc]
  split
  next h0 => exact fun hz => h ⟨h0, by omega⟩
  next => decide

/-- The tenth zero word fills the halt detector (60_exceptions R191). -/
theorem atExecute_zc_tenth {s : State} (h0 : s.fetchWord = 0) (hz : s.zc = 9) : s.atExecute.zc = 10 := by
  rw [State.atExecute_zc, if_pos h0, hz]

/-- Settles O47: the three ways a cycle that fetches can end the run, each an update of the latched state. -/
theorem faultsArePrecise : Obligations.FaultsArePrecise := by
  intro s h hs hw
  refine ⟨fun hb => ?_, fun hb h0 hz => ?_, fun f hb hzero hf => ?_⟩
  · exact step_noWord h hs hw hb
  · have hten := atExecute_zc_tenth h0 hz
    rw [step_halted ⟨h, hs, hw, hb⟩ hten, ← hten]
    rfl
  · rw [step_executes ⟨h, hs, hw, hb⟩ (atExecute_zc_ne_ten hzero), runInstruction_fault hf]
    rfl

/-- An instruction leaves the halt detector's count, whatever it answers. -/
theorem runInstruction_zc (w : Word) (s : State) : ∃ t, runInstruction w s = .next t ∧ t.zc = s.zc := by
  cases he : exec (decodeWord w) s with
  | next t =>
    obtain ⟨-, -, hzc, -⟩ := exec_keeps_scheduler he
    exact ⟨_, runInstruction_next he, (State.endCycle_zc t).trans hzc⟩
  | fault f => exact ⟨_, runInstruction_fault he, rfl⟩
  | refused r => exact absurd he (exec_ne_refused _ _ _)

/-- Settles O48: a word that is not zero clears the count; the tenth zero word halts; any zero word before it
is SYS. -/
theorem tenZeroWordsHaltTheRun : Obligations.TenZeroWordsHaltTheRun := by
  refine fun s h => ⟨fun h0 _ => ?_, fun h0 hz => ?_, fun h0 hz => ?_⟩
  · rw [step_executes h (atExecute_zc_ne_ten fun hc => h0 hc.1)]
    obtain ⟨t, ht, hzc⟩ := runInstruction_zc s.fetchWord s.atExecute
    exact ⟨t, ht, by rw [hzc, State.atExecute_zc, if_neg h0]⟩
  · have hten := atExecute_zc_tenth h0 hz
    exact ⟨_, step_halted h hten, rfl, rfl, hten, rfl⟩
  · have hzc : s.atExecute.zc = s.zc + 1 := by rw [State.atExecute_zc, if_pos h0]
    have hexec : exec (decodeWord s.fetchWord) s.atExecute = .next (s.atExecute.emitDiag 0).advance := by
      rw [h0]; exact exec_sys 0 s.atExecute
    rw [step_executes h (by omega), runInstruction_next hexec]
    refine ⟨_, rfl, ?_, ?_, ?_, ?_⟩
    · simp [h.running]
    · simp
    · simp [h0]
    · simp

/-! ## What a step keeps -/

/-- Settles O46: by the cases of `step` past the stop check; no instruction writes the latch. -/
theorem everyCycleLatchesKeys : Obligations.EveryCycleLatchesKeys := by
  intro s t h hs hstep
  cases stepCase_of_next hstep with
  | ended ht => exact absurd h (by rw [← terminal_false, ht]; decide)
  | stopped h' hs' => rw [hs] at hs'; cases hs'
  | waited h' hs' hw =>
    rw [State.endCycle_prevKeys, State.endCycle_keys, checkKeyWait_eq]
    exact ⟨rfl, rfl⟩
  | noWord h' hs' hw hb => exact ⟨rfl, rfl⟩
  | halted hr hz => exact ⟨rfl, rfl⟩
  | ran hr hz he =>
    obtain ⟨hkeys, hprev, -⟩ := exec_keeps_scheduler he
    rw [State.endCycle_prevKeys, State.endCycle_keys]
    exact ⟨hprev, hkeys⟩
  | faulted hr hz he => exact ⟨rfl, rfl⟩

/-- Settles O53: by the cases of `step`; no instruction writes a parameter. -/
theorem parametersNeverChange : Obligations.ParametersNeverChange := by
  intro s t hstep
  cases stepCase_of_next hstep with
  | waited h hs hw => rw [State.endCycle_config, checkKeyWait_eq]; rfl
  | ran hr hz he =>
    obtain ⟨-, -, -, -, -, hconfig, -⟩ := exec_keeps_scheduler he
    exact (State.endCycle_config _).trans hconfig
  | _ => rfl

/-- A step that executes no instruction to its end leaves the framebuffer, the stack and memory. -/
theorem step_bulk {s t : State} (hstep : step s = .next t) :
    (t.fb = s.fb ∧ t.stack = s.stack ∧ t.sp = s.sp ∧ t.mem = s.mem) ∨
    ∃ u, exec (decodeWord s.fetchWord) s.atExecute = .next u ∧ t = u.endCycle := by
  cases stepCase_of_next hstep with
  | waited h hs hw =>
    rw [State.endCycle_fb, State.endCycle_stack, State.endCycle_sp, State.endCycle_mem, checkKeyWait_eq]
    exact .inl ⟨rfl, rfl, rfl, rfl⟩
  | ran hr hz he => exact .inr ⟨_, he, rfl⟩
  | _ => exact .inl ⟨rfl, rfl, rfl, rfl⟩

/-- Settles O54: the end of a cycle writes none of the three, so the frames of the instruction are those of
the step. -/
theorem cycleChangesBulkStateOnlyByInstruction : Obligations.CycleChangesBulkStateOnlyByInstruction := by
  intro s t hstep
  obtain ⟨hfb, hstack, hsp, hmem⟩ | ⟨u, he, rfl⟩ := step_bulk hstep
  · exact ⟨fun _ => hfb, fun _ => ⟨hstack, hsp⟩, fun _ => hmem⟩
  rw [State.endCycle_fb, State.endCycle_stack, State.endCycle_sp, State.endCycle_mem]
  refine ⟨fun ⟨hcls, hdrw⟩ => ?_, fun ⟨hret, hcall⟩ => ?_, fun hstore => ?_⟩
  · obtain hi | ⟨x, y, n, hi⟩ | ⟨hfb, -⟩ := exec_keeps_frame he
    · exact absurd hi hcls
    · exact absurd hi (hdrw x y n)
    · exact hfb
  · obtain hi | ⟨nnn, hi⟩ | hkept := exec_keeps_stack he
    · exact absurd hi hret
    · exact absurd hi (hcall nnn)
    · exact hkept
  · obtain ⟨x, hi | hi⟩ | hmem := exec_keeps_mem he
    · exact absurd hi (hstore x).1
    · exact absurd hi (hstore x).2
    · exact hmem

/-! ## The diagnostic -/

/-- An unrecognized word drives a diagnostic with itself and its `pc`. -/
theorem diag_of_unrecognized {w : Word} {s t : State} (he : exec (decodeWord w) s = .next t)
    (hw : (∃ nnn, decodeWord w = .sys nnn) ∨ ∃ w', decodeWord w = .dw w') :
    t.out.diag = some (w, s.pc) := by
  obtain ⟨nnn, hi⟩ | ⟨w', hi⟩ := hw
  · rw [hi, exec_sys] at he
    obtain rfl := Host.Outcome.next.inj he
    rw [eq_wordA_of_decodeWord_sys hi, ← addressOf_eq_wordA]
    rfl
  · rw [hi, exec_dw] at he
    obtain rfl := Host.Outcome.next.inj he
    rw [eq_of_decodeWord_dw hi]
    rfl

/-- A step drives a diagnostic only by executing an unrecognized word to its end. -/
theorem ran_of_diag {s t : State} (hstep : step s = .next t) (hdiag : t.out.diag ≠ none) :
    s.Runs ∧ s.atExecute.zc ≠ 10 ∧
      ∃ u, exec (decodeWord s.fetchWord) s.atExecute = .next u ∧ t = u.endCycle := by
  cases stepCase_of_next hstep with
  | waited h hs hw =>
    rw [State.endCycle_diag, checkKeyWait_eq] at hdiag
    exact absurd rfl hdiag
  | ran hr hz he => exact ⟨hr, hz, _, he, rfl⟩
  | _ => exact absurd rfl hdiag

/-- Settles O52: only an instruction that runs to its end can drive a diagnostic, and of those only the
unrecognized words do. -/
theorem diagOnlyForUnrecognizedWords : Obligations.DiagOnlyForUnrecognizedWords := by
  intro s t opcode pc hstep
  constructor
  · intro hdiag
    obtain ⟨hr, hz, u, he, rfl⟩ := ran_of_diag hstep (by rw [hdiag]; exact Option.some_ne_none _)
    rw [State.endCycle_diag] at hdiag
    have hw : (∃ nnn, decodeWord s.fetchWord = .sys nnn) ∨ ∃ w, decodeWord s.fetchWord = .dw w := by
      obtain hi | hi | hout := exec_keeps_out he
      · exact .inl hi
      · exact .inr hi
      · rw [hout] at hdiag; cases hdiag
    rw [diag_of_unrecognized he hw] at hdiag
    cases hdiag
    exact ⟨hr, hz, rfl, rfl, hw⟩
  · rintro ⟨hr, hz, rfl, rfl, hw⟩
    rw [step_executes hr hz] at hstep
    cases he : exec (decodeWord s.fetchWord) s.atExecute with
    | next u =>
      rw [runInstruction_next he] at hstep
      obtain rfl := Host.Outcome.next.inj hstep
      rw [State.endCycle_diag]
      exact diag_of_unrecognized (s := s.atExecute) he hw
    | fault f =>
      obtain ⟨nnn, hi⟩ | ⟨w, hi⟩ := hw
      · rw [hi, exec_sys] at he; cases he
      · rw [hi, exec_dw] at he; cases he
    | refused r => exact absurd he (exec_ne_refused _ _ _)

end Sys2Proof.Machine
end

section
/-!
PROOFS. The end of a cycle: the divider, the tick, the presentation (60_exceptions R185 to R189), and the
timer law (70_reset_and_hazards R216).
-/
namespace Sys2Proof.Machine

/-- Settles O59: by the equation of the end of a cycle, which leaves the `diag` port. -/
theorem cycleEndWritesOnlyTimersAndPorts : Obligations.CycleEndWritesOnlyTimersAndPorts := by
  intro s
  have hout : s.endCycle.out = { s.out with beep := s.endCycle.out.beep, frame := s.endCycle.out.frame } :=
    congrArg (Outputs.mk _ _) s.endCycle_diag
  rw [← hout]
  exact State.endCycle_eq s

/-- Settles O49: the timers at the end of a cycle are those of its divider step. -/
theorem dividerTicksEveryNinthCycle : Obligations.DividerTicksEveryNinthCycle := by
  intro s hquiet
  obtain ⟨hdt, hst, hdiv, hbeep⟩ := endCycle_timers s
  rw [hdt, hst, hdiv, hbeep]
  refine ⟨fun h => ?_, fun h => ?_⟩
  · rw [divide_ticking h]
    exact ⟨rfl, toNat_ticked s.dt, toNat_ticked s.st, by simp [hquiet]⟩
  · rw [divide_counting h]
    exact ⟨rfl, rfl, rfl, hquiet⟩

/-- A presentation point is a cycle that ticks, or every cycle when `PRESENT_DIVIDER` is 1. -/
theorem presentationPoint_iff (s : State) : presentationPoint s.config.presentDivider s.ticks = true ↔
    s.config.presentDivider = .one ∨ s.div = 8 := by
  cases s.config.presentDivider <;> simp [presentationPoint, State.ticks]

/-- Settles O51: the frame is presented at the end of the cycle, from the framebuffer the divider step
leaves. -/
theorem framePresentedAtPresentationPoint : Obligations.FramePresentedAtPresentationPoint := by
  intro s hquiet
  refine ⟨fun hpoint hready => ?_, fun hnot => ?_, State.endCycle_fb s⟩
  · rw [State.endCycle, if_pos ((presentationPoint_iff s).mpr hpoint), State.present,
      if_pos (s.divide_frameReady.trans hready)]
    exact ⟨congrArg some s.divide_fb, rfl⟩
  · have hkept : s.endCycle = s.divide := by
      rw [State.endCycle]
      split
      next hpoint =>
        have hready : ¬s.divide.frameReady = true := fun hready =>
          hnot ⟨(presentationPoint_iff s).mp hpoint, s.divide_frameReady.symm.trans hready⟩
        rw [State.present, if_neg hready]
      next => rfl
    rw [hkept]
    exact ⟨s.divide_frame.trans hquiet, s.divide_frameReady⟩

/-- The divider and the timers after one more cycle. -/
theorem endCycle_counts {u : State} (hquiet : u.out.beep = false) :
    (u.div = 8 → u.endCycle.div = 0 ∧ u.endCycle.dt.toNat = u.dt.toNat - 1 ∧
      u.endCycle.st.toNat = u.st.toNat - 1 ∧ (u.endCycle.out.beep = true ↔ u.st.toNat = 1)) ∧
    (u.div ≠ 8 → u.endCycle.div = u.div + 1 ∧ u.endCycle.dt.toNat = u.dt.toNat ∧
      u.endCycle.st.toNat = u.st.toNat ∧ u.endCycle.out.beep = false) := by
  obtain ⟨htick, hcount⟩ := dividerTicksEveryNinthCycle u hquiet
  refine ⟨fun h => ?_, fun h => ?_⟩
  · obtain ⟨hdiv, hdt, hst, hbeep⟩ := htick h
    exact ⟨hdiv, hdt, hst, hbeep.trans BitVec.toNat_inj.symm⟩
  · obtain ⟨hdiv, hdt, hst, hbeep⟩ := hcount h
    exact ⟨hdiv, congrArg _ hdt, congrArg _ hst, hbeep⟩

/-- Settles O50: by induction on the cycles, with the divider at `m` modulo 9 carried along. -/
theorem timersLoseOneEveryNineCycles : Obligations.TimersLoseOneEveryNineCycles := by
  intro run hdiv hcycle
  have counts (m : Nat) : (run m).div = m % 9 ∧ (run m).dt.toNat = (run 0).dt.toNat - m / 9 ∧
      (run m).st.toNat = (run 0).st.toNat - m / 9 := by
    induction m with
    | zero => exact ⟨hdiv, rfl, rfl⟩
    | succ m ih =>
      obtain ⟨hm, hdt, hst⟩ := ih
      obtain ⟨u, hudt, hust, hudiv, hquiet, hrun⟩ := hcycle m
      obtain ⟨htick, hcount⟩ := endCycle_counts hquiet
      rw [hudt, hust, hudiv, ← hrun, hm, hdt, hst] at htick hcount
      by_cases h8 : m % 9 = 8
      · obtain ⟨h1, h2, h3, -⟩ := htick h8
        omega
      · obtain ⟨h1, h2, h3, -⟩ := hcount h8
        omega
  intro m
  obtain ⟨hm, hdt, hst⟩ := counts m
  refine ⟨hdt, hst, ?_⟩
  obtain ⟨u, -, hust, hudiv, hquiet, hrun⟩ := hcycle m
  obtain ⟨htick, hcount⟩ := endCycle_counts hquiet
  rw [hust, hudiv, ← hrun, hm, hst] at htick hcount
  by_cases h8 : m % 9 = 8
  · obtain ⟨-, -, -, hbeep⟩ := htick h8
    rw [hbeep]
    omega
  · obtain ⟨-, -, -, hbeep⟩ := hcount h8
    rw [hbeep]
    simp only [Bool.false_eq_true, false_iff]
    omega

end Sys2Proof.Machine
end

section
/-!
PROOFS. Reset and load (10_state R44, 70_reset_and_hazards R200, R201), and the placing of a word.
-/
namespace Sys2Proof.Machine

/-! ## Reset and load -/

/-- An address that memory does not list reads as zero above the font (20_memory R51). -/
theorem unlistedByte_above {a : Nat} (h : 80 ≤ a) : unlistedByte a = 0 := by
  have hlen : defaultFont.length ≤ a := h
  rw [unlistedByte, List.getD_eq_getElem?_getD, List.getElem?_eq_none hlen, Option.getD_none]

/-- The reset state with any canonical memory and any parameters meets the invariant. -/
theorem inv_reset {m : Memory} (hm : m.wf = true) (c : Config) :
    ({ State.reset with mem := m, config := c } : State).Inv where
  memWf := hm
  indexBound := show (0 : Word).toNat ≤ 0x1000 by decide
  pcBound := show (0x200 : Word).toNat ≤ 0x10FE by decide
  stackBound := fun j h => by simp [State.reset]
  zeroCount := show 0 < 10 by decide
  divBound := show 0 ≤ 8 by decide
  waitWord := fun h => by cases h
  endQuiet := fun _ => rfl

/-- Settles O40: the empty memory is canonical. -/
theorem resetSatisfiesInvariant : Obligations.ResetSatisfiesInvariant := inv_reset (m := []) rfl defaultConfig

/-- Settles O41: every value is read off the reset state; its framebuffer is the clear one and its memory the
empty list. -/
theorem resetLeavesSpecValues : Obligations.ResetLeavesSpecValues := by
  have hregs (x : Nibble) : State.reset.getV x = 0 := Vector.getElem_replicate x.isLt
  have hstack (j : Nat) (h : j < 16) : State.reset.stack[j] = 0 := Vector.getElem_replicate h
  exact ⟨rfl, rfl, hregs, hstack, rfl, rfl, rfl, pixel_clearFrame, rfl, rfl, rfl, rfl, rfl, rfl, rfl,
    fun a h => unlistedByte_above h, fun a _ => rfl⟩

/-- Settles O43: the load refuses exactly by its size check. -/
theorem loadRefusesOnlyLargeRoms : Obligations.LoadRefusesOnlyLargeRoms :=
  fun _ _ _ => ⟨fun h => if_pos h, fun h => ⟨_, if_neg (Nat.not_lt.mpr h)⟩⟩

/-- A load that succeeds: the ROM fits, and only memory and the parameters are not the reset state's. -/
theorem load_eq_ok {font : Vector Byte 80} {config : Config} {rom : List Byte} {s : State}
    (h : load font config rom = .ok s) :
    rom.length ≤ 3584 ∧ s = { State.reset with mem := loadedMemory font rom, config := config } := by
  by_cases hlen : rom.length > 3584
  · rw [(loadRefusesOnlyLargeRoms font config rom).1 hlen] at h
    cases h
  · have hload : load font config rom = .ok _ := if_neg hlen
    rw [hload] at h
    exact ⟨Nat.not_lt.mp hlen, (Except.ok.inj h).symm⟩

section
variable {font : Vector Byte 80} {rom : List Byte} {a : Nat}

/-- The loaded memory outside the ROM is the font's. -/
theorem read_loaded_outside (h : a < 0x200 ∨ 0x200 + rom.length ≤ a) :
    (loadedMemory font rom).read a = (Memory.writeBytes [] 0 font.toList).read a :=
  Memory.read_writeBytes_outside h

/-- The loaded memory at the font. -/
theorem read_loaded_font (h : a < 80) : (loadedMemory font rom).read a = font[a] := by
  have hlen : a < font.toList.length := by rwa [Vector.length_toList]
  rw [read_loaded_outside (.inl (by omega))]
  have hread := Memory.read_writeBytes_inside (m := []) (a := 0) hlen
  rw [Nat.zero_add] at hread
  rw [hread, Vector.getElem_toList]

/-- The loaded memory at neither the font nor the ROM. -/
theorem read_loaded_zero (h80 : 80 ≤ a) (h : a < 0x200 ∨ 0x200 + rom.length ≤ a) :
    (loadedMemory font rom).read a = 0 := by
  rw [read_loaded_outside h, Memory.read_writeBytes_outside (.inr (by simpa using h80))]
  exact unlistedByte_above h80

/-- The loaded memory is canonical. -/
theorem loadedMemory_wf (h : rom.length ≤ 3584) : (loadedMemory font rom).wf = true := by
  have hfont : (Memory.writeBytes [] 0 font.toList).wf = true :=
    Memory.wf_writeBytes rfl (by simp [lastAddress])
  exact Memory.wf_writeBytes hfont (by rw [lastAddress]; omega)

end

/-- Settles O42: the ROM is written over the font's memory, which is written over the empty one. -/
theorem loadLaysOutMemory : Obligations.LoadLaysOutMemory := by
  intro font config rom s hload
  obtain ⟨hlen, rfl⟩ := load_eq_ok hload
  refine ⟨fun a h => read_loaded_font h, fun a h80 h => read_loaded_zero h80 (.inl h),
    fun k h => Memory.read_writeBytes_inside h, fun a h => read_loaded_zero (by omega) (.inr h), rfl, ?_⟩
  exact inv_reset (loadedMemory_wf hlen) config

/-! ## Placing a word (log 11) -/

/-- The word placed is the whole of a word's number. -/
theorem withFetchWord_toNat (s : State) (w : Word) : s.withFetchWord 16 w.toNat = s.placeWord w := by
  rw [State.withFetchWord, Nat.mod_eq_of_lt w.isLt, BitVec.ofNat_toNat, BitVec.setWidth_eq]

section
variable (s : State) (w : Word)

/-- Where the word is placed there is room for it. -/
theorem placeWord_inBounds : (s.placeWord w).pc.toNat + 1 ≤ 4095 := by
  change (if outOfBounds s.pc.toNat 2 then 0x200 else s.pc : Word).toNat + 1 ≤ 4095
  split
  next => decide
  next h =>
    have hin := outOfBounds_false.mp (Bool.eq_false_iff.mpr h)
    omega

/-- The state with a word placed runs it. -/
theorem placeWord_runs : (s.placeWord w).Runs where
  running := rfl
  noStop := by cases h : s.inputs <;> simp [State.placeWord, State.nextInput, h]
  noWait := rfl
  inBounds := placeWord_inBounds s w

/-- The memory of the state with a word placed. -/
theorem placeWord_mem :
    (s.placeWord w).mem = s.mem.writeBytes (s.placeWord w).pc.toNat (bytesOfWord w) := by rfl

/-- The word placed is the word fetched. -/
theorem placeWord_fetchWord : (s.placeWord w).fetchWord = w := by
  have hhi : (s.placeWord w).mem.read ((s.placeWord w).pc.toNat + 0) = w.extractLsb' 8 8 :=
    Memory.read_writeBytes_inside (vs := bytesOfWord w) (by decide : 0 < 2)
  have hlo : (s.placeWord w).mem.read ((s.placeWord w).pc.toNat + 1) = w.extractLsb' 0 8 :=
    Memory.read_writeBytes_inside (vs := bytesOfWord w) (by decide : 1 < 2)
  rw [State.fetchWord, ← Nat.add_zero (s.placeWord w).pc.toNat, hhi, Nat.add_zero, hlo,
    wordOfBytes_bytesOfWord]

/-- The word placed is not the tenth zero word. -/
theorem placeWord_zc : (s.placeWord w).atExecute.zc ≠ 10 := by
  have hzc : (s.placeWord w).zc < 9 := by
    change (if s.zc < 9 then s.zc else 0) < 9
    split <;> omega
  exact atExecute_zc_ne_ten fun h => by omega

/-- Placing a word touches two bytes. -/
theorem placeWord_read {a : Nat} (h0 : a ≠ (s.placeWord w).pc.toNat) (h1 : a ≠ (s.placeWord w).pc.toNat + 1) :
    (s.placeWord w).mem.read a = s.mem.read a := by
  rw [placeWord_mem]
  refine Memory.read_writeBytes_outside ?_
  have hlen : (bytesOfWord w).length = 2 := rfl
  omega

end

/-- In a state about to run a word placing one touches memory alone. -/
theorem placeWord_eq {s : State} {w : Word} (h : s.Runs) (hi : s.inputs ≠ []) (hz : s.zc < 9) :
    s.placeWord w = { s with mem := (s.placeWord w).mem } := by
  obtain ⟨hrunning, hstop, hwait, hb⟩ := h
  have hin : outOfBounds s.pc.toNat 2 = false := outOfBounds_false.mpr (.inr (by omega))
  have hpc : (s.placeWord w).pc = s.pc := if_neg (Bool.eq_false_iff.mp hin)
  have hzc : (s.placeWord w).zc = s.zc := if_pos hz
  have hkept : (s.placeWord w).wait = s.wait := congrArg (Wait.mk · s.wait.reg) hwait.symm
  have hinputs : (s.placeWord w).inputs = s.inputs := by
    obtain ⟨input, rest, hlist⟩ := List.exists_cons_of_ne_nil hi
    have hinput : input.stop = false := by simpa [State.nextInput, hlist] using hstop
    simp only [State.placeWord, hlist, ← hinput]
  calc s.placeWord w
      = { s with
          mem := (s.placeWord w).mem, pc := (s.placeWord w).pc, status := .running
          wait := (s.placeWord w).wait, zc := (s.placeWord w).zc, inputs := (s.placeWord w).inputs } := rfl
    _ = { s with mem := (s.placeWord w).mem } := by rw [hpc, hkept, hzc, hinputs, ← hrunning]

/-- Settles O58: the state with the word placed runs, fetches the word and does not halt on it. -/
theorem placedWordIsFetchedAndRun : Obligations.PlacedWordIsFetchedAndRun := by
  refine fun s w => ⟨s.placeWord w, (withFetchWord_toNat s w).symm, placeWord_runs s w,
    placeWord_fetchWord s w, ?_, fun a h0 h1 => placeWord_read s w h0 h1, placeWord_eq⟩
  rw [step_executes (placeWord_runs s w) (placeWord_zc s w), placeWord_fetchWord, runInstruction]
  cases exec (decodeWord w) (s.placeWord w).atExecute <;> rfl

end Sys2Proof.Machine
end

section
/-!
PROOFS. The invariant of a run (10_state R28 to R40, 60_exceptions R171): each part of a cycle keeps it.
-/
namespace Sys2Proof.Machine

/-! ## The instruction -/

section
variable {i : Instr} {s t : State}

/-- An instruction stores inside memory, in canonical form. -/
theorem exec_keeps_wf (h : exec i s = .next t) (hwf : s.mem.wf = true) : t.mem.wf = true := by
  have stored {l : List Byte} (hb : outOfBounds s.indexAddress l.length = false) :
      (s.storedAtIndex l).mem.wf = true := by
    obtain h0 | hle := outOfBounds_false.mp hb
    · obtain rfl := List.eq_nil_of_length_eq_zero h0
      exact hwf
    · exact Memory.wf_writeBytes hwf hle
  cases execCase_of_next h with
  | storedDigits x hb => exact stored hb
  | storedBlock x hb => exact stored ((length_regBlock s x).symm ▸ hb)
  | _ => exact hwf

/-- After a block transfer in bounds `I` is at most 0x1000 (10_state R30). -/
theorem advanceIndex_bound {x : Nibble} (hb : outOfBounds s.indexAddress (transferCount x) = false) :
    (s.advanceIndex (transferCount x)).i.toNat ≤ 0x1000 := by
  have hle : s.i.toNat + transferCount x ≤ 4096 :=
    (outOfBounds_false.mp hb).resolve_left (Nat.succ_ne_zero _)
  rw [toNat_advanceIndex hle]
  split <;> omega

/-- An instruction keeps `I` at most 0x1000 (10_state R30). -/
theorem exec_index_bound (h : exec i s = .next t) (hi : s.i.toNat ≤ 0x1000) : t.i.toNat ≤ 0x1000 := by
  cases execCase_of_next h with
  | loadedAddress nnn =>
    have hn := nnn.isLt
    change (addressOf nnn).toNat ≤ 0x1000
    rw [toNat_addressOf]; omega
  | loadedGlyph x =>
    have hb := (s.getV x).isLt
    change (glyphAddress (s.getV x)).toNat ≤ 0x1000
    rw [toNat_glyphAddress]; omega
  | addedIndex x u f =>
    change (BitVec.ofNat 16 u &&& 0xFFF).toNat ≤ 0x1000
    rw [toNat_ofNat_and_FFF]; omega
  | storedBlock x hb => exact advanceIndex_bound (s := s) hb
  | loadedBlock x hb => exact advanceIndex_bound (s := s) hb
  | _ => exact hi

/-- Moving on from a fetchable address by 2 or 4. -/
theorem toNat_skip {pc : Word} (hpc : pc.toNat ≤ 0xFFE) (c : Bool) :
    (pc + if c then 4 else 2).toNat ≤ 0x10FE := by
  have h4 : (4 : Word).toNat = 4 := rfl
  have h2 : (2 : Word).toNat = 2 := rfl
  cases c <;> simp only [Bool.false_eq_true, if_false, if_true, BitVec.toNat_add] <;> omega

/-- Moving on from a fetchable address by 2. -/
theorem toNat_advance {pc : Word} (hpc : pc.toNat ≤ 0xFFE) : (pc + 2).toNat ≤ 0x10FE :=
  toNat_skip hpc false

/-- An instruction at a fetchable address leaves `pc` at most 0x10FE (10_state R28). -/
theorem exec_pc_bound (h : exec i s = .next t) (hpc : s.pc.toNat ≤ 0xFFE)
    (hstack : ∀ j (hj : j < 16), s.stack[j].toNat ≤ 0xFFE) : t.pc.toNat ≤ 0x10FE := by
  cases execCase_of_next h with
  | skipped c => exact toNat_skip hpc c
  | jumped target ht => exact ht
  | called nnn hsp =>
    have hn := nnn.isLt
    change (addressOf nnn).toNat ≤ 0x10FE
    rw [toNat_addressOf]; omega
  | returned hsp => exact toNat_advance (hstack _ _)
  | startedWait x => exact Nat.le_trans hpc (by decide)
  | _ => exact toNat_advance hpc

/-- An instruction at a fetchable address pushes a fetchable address (41_control_flow R102). -/
theorem exec_stack_bound (h : exec i s = .next t) (hpc : s.pc.toNat ≤ 0xFFE)
    (hstack : ∀ j (hj : j < 16), s.stack[j].toNat ≤ 0xFFE) : ∀ j (hj : j < 16), t.stack[j].toNat ≤ 0xFFE := by
  cases execCase_of_next h with
  | called nnn hsp =>
    intro j hj
    change ((s.stack.set s.sp.val s.pc hsp)[j]).toNat ≤ 0xFFE
    rw [Vector.getElem_set]
    split
    · exact hpc
    · exact hstack j hj
  | _ => exact hstack

/-- An instruction that leaves a key wait active is the `Fx0A` at `pc` (10_state R40). -/
theorem exec_wait (h : exec i s = .next t) (hw : s.wait.active = false) (ht : t.wait.active = true) :
    i = .ldVxK t.wait.reg ∧ t.pc = s.pc ∧ t.mem = s.mem := by
  cases execCase_of_next h with
  | startedWait x => exact ⟨rfl, rfl, rfl⟩
  | _ => exact absurd (hw.symm.trans ht) Bool.false_ne_true

end

/-! ## The cycle around the instruction -/

/-- The count of a state that has not halted (10_state R38). -/
theorem zeroCount_of_not_halted {s : State} (h : s.status.isHalted = false) (hz : s.zc < 10) :
    if s.status.isHalted then s.zc = 10 else s.zc < 10 := by
  rw [if_neg (Bool.eq_false_iff.mp h)]; exact hz

namespace State.Inv

variable {s t : State}

/-- The invariant of a state that differs from another in nothing it bounds but the count and the status. -/
theorem of_kept (h : s.Inv) (hmem : t.mem = s.mem) (hi : t.i = s.i) (hpc : t.pc = s.pc)
    (hstack : t.stack = s.stack) (hdiv : t.div = s.div) (hwait : t.wait = s.wait)
    (hzero : if t.status.isHalted then t.zc = 10 else t.zc < 10)
    (hquiet : t.status.terminal = true → t.out = Outputs.quiet) : t.Inv where
  memWf := hmem ▸ h.memWf
  indexBound := hi ▸ h.indexBound
  pcBound := hpc ▸ h.pcBound
  stackBound := hstack ▸ h.stackBound
  zeroCount := hzero
  divBound := hdiv ▸ h.divBound
  waitWord := by rw [hwait, hpc, fetchWord_congr hmem hpc]; exact h.waitWord
  endQuiet := hquiet

/-- The count of a running machine. -/
theorem zc_lt (h : s.Inv) (hr : s.status = .running) : s.zc < 10 := by
  have hz := h.zeroCount
  rw [hr] at hz
  exact hz

/-- The latch keeps the invariant. -/
theorem afterLatch (h : s.Inv) : s.afterLatch.Inv :=
  h.of_kept rfl rfl rfl rfl rfl rfl h.zeroCount fun _ => rfl

/-- The count of a fetched word keeps the invariant, if the word is not the tenth zero word. -/
theorem atExecute (h : s.Inv) (hr : s.status = .running) (hz : s.atExecute.zc ≠ 10) : s.atExecute.Inv := by
  refine h.of_kept rfl rfl rfl rfl rfl rfl (zeroCount_of_not_halted ?_ ?_) fun _ => rfl
  · rw [State.atExecute_status, hr]; rfl
  · have hlt := h.zc_lt hr
    rw [State.atExecute_zc] at hz ⊢
    split at hz <;> rename_i h0
    · rw [if_pos h0]; omega
    · rw [if_neg h0]; omega

/-- An instruction that completes keeps the invariant. -/
theorem exec {i : Instr} (h : s.Inv) (hr : s.status = .running) (hw : s.wait.active = false)
    (hpc : s.pc.toNat ≤ 0xFFE) (hi : decodeWord s.fetchWord = i) (he : Machine.exec i s = .next t) :
    t.Inv := by
  obtain ⟨-, -, hzc, hdiv, hstatus, -⟩ := exec_keeps_scheduler he
  have hrunning : t.status = .running := hstatus.trans hr
  exact {
    memWf := exec_keeps_wf he h.memWf
    indexBound := exec_index_bound he h.indexBound
    pcBound := exec_pc_bound he hpc h.stackBound
    stackBound := exec_stack_bound he hpc h.stackBound
    zeroCount := zeroCount_of_not_halted (by rw [hrunning]; rfl) (hzc ▸ h.zc_lt hr)
    divBound := hdiv ▸ h.divBound
    waitWord := fun ht => by
      obtain ⟨hwait, hpc', hmem⟩ := exec_wait he hw ht
      rw [hpc', fetchWord_congr hmem hpc', hi]
      exact ⟨hpc, hwait⟩
    endQuiet := fun hend => by rw [hrunning] at hend; cases hend }

/-- The completion check keeps the invariant: it ends the wait and moves on from a fetchable address. -/
theorem checkKeyWait (h : s.Inv) (hw : s.wait.active = true) :
    s.checkKeyWait.Inv := by
  by_cases hnew : s.newKeys = 0
  · rwa [checkKeyWait_idle hnew]
  rw [checkKeyWait_done hnew]
  exact {
    memWf := h.memWf
    indexBound := h.indexBound
    pcBound := toNat_advance (h.waitWord hw).1
    stackBound := h.stackBound
    zeroCount := h.zeroCount
    divBound := h.divBound
    waitWord := fun hactive => by cases hactive
    endQuiet := h.endQuiet }

/-- The divider stays in its range (10_state R39). -/
theorem div_endCycle (h : s.Inv) : s.endCycle.div ≤ 8 := by
  obtain ⟨-, -, hdiv, -⟩ := endCycle_timers s
  rw [hdiv]
  by_cases h8 : s.div = 8
  · rw [divide_ticking h8]; exact Nat.zero_le 8
  · rw [divide_counting h8]
    have hle := h.divBound
    change s.div + 1 ≤ 8
    omega

/-- The end of a cycle keeps the invariant. -/
theorem endCycle (h : s.Inv) (hr : s.status = .running) : s.endCycle.Inv where
  memWf := by rw [State.endCycle_mem]; exact h.memWf
  indexBound := by rw [State.endCycle_i]; exact h.indexBound
  pcBound := by rw [State.endCycle_pc]; exact h.pcBound
  stackBound := by rw [State.endCycle_stack]; exact h.stackBound
  zeroCount := by rw [State.endCycle_status, State.endCycle_zc]; exact h.zeroCount
  divBound := h.div_endCycle
  waitWord := by rw [State.endCycle_wait, State.endCycle_pc, State.endCycle_fetchWord]; exact h.waitWord
  endQuiet := fun hend => by rw [State.endCycle_status, hr] at hend; cases hend

end State.Inv

/-- Settles O39: by the cases of `step`, whose parts each keep the invariant. -/
theorem stepPreservesInvariant : Obligations.StepPreservesInvariant := by
  intro s t h hstep
  cases stepCase_of_next hstep with
  | ended hend => exact h.of_kept rfl rfl rfl rfl rfl rfl h.zeroCount fun _ => rfl
  | stopped hr hs => exact h.of_kept rfl rfl rfl rfl rfl rfl (h.zc_lt hr) fun _ => rfl
  | waited hr hs hw =>
    have hrunning : s.afterLatch.checkKeyWait.status = .running := by rw [checkKeyWait_eq]; exact hr
    exact (h.afterLatch.checkKeyWait hw).endCycle hrunning
  | noWord hr hs hw hb => exact h.of_kept rfl rfl rfl rfl rfl rfl (h.zc_lt hr) fun _ => rfl
  | halted hruns hz => exact h.of_kept rfl rfl rfl rfl rfl rfl hz fun _ => rfl
  | ran hruns hz he =>
    obtain ⟨hr, hs, hw, hb⟩ := hruns
    have hexecuting := h.atExecute hr hz
    obtain ⟨-, -, -, -, hstatus, -⟩ := exec_keeps_scheduler he
    exact (hexecuting.exec hr hw (Nat.le_of_succ_le_succ hb) rfl he).endCycle (hstatus.trans hr)
  | faulted hruns hz he =>
    have hexecuting := h.atExecute hruns.running hz
    exact hexecuting.of_kept rfl rfl rfl rfl rfl rfl (hexecuting.zc_lt hruns.running) fun _ => rfl

end Sys2Proof.Machine
end
